-- ==== Sys2Proof/Word.lean ====
section
/-! DEFINITION. The word types of the block: node index, node word, byte, and the input bit, and the type of node memory. Widths: spec/00_scope.md R5. -/

namespace Sys2Proof

/-- A node index, `AW` = 9 bits (R5, R22): the contents of `cursor` and of a child field. -/
abbrev NodeIdx := BitVec 9

/-- A node word, `NW` = 19 bits (R5, R70). -/
abbrev NodeWord := BitVec 19

/-- A symbol, and the byte emitted for it, `SYMW` = 8 bits (R2, R5). -/
abbrev Byte := BitVec 8

/-- One bit of the bit source (R47): `false` is 0 (left), `true` is 1 (right). -/
abbrev Bit := Bool

/-- Node memory `T` (R28, R40): (index, word) pairs, indices strictly rising, none equal to what an unlisted index reads as. -/
abbrev Machine.NodeMem := List (Nat × NodeWord)

end Sys2Proof
end

