-- ==== Sys2Proof/Syntax.lean ====
section
/-! DEFINITION. The instructions: the two node words of spec/opcode_table.json. -/

namespace Sys2Proof

/-- A node word's operation (R10, R75): one constructor per row of the opcode table. The reserved bits of a leaf
word are no operand: the block ignores them (R76). -/
inductive Instr where
  /-- `INT l, r` (R71, R101): internal node; child `l` on bit 0, child `r` on bit 1. -/
  | int (l r : NodeIdx)
  /-- `LEAF s` (R73, R102): leaf carrying symbol `s`. -/
  | leaf (s : Byte)
deriving DecidableEq, Repr, Inhabited

end Sys2Proof
end

