-- ==== Sys2Proof/Decode.lean ====
section
/-! DEFINITION. Node word encoding (spec/30_encoding.md part A): field extractors, the decoder, and after it the encoder. -/

namespace Sys2Proof

/-- `tag(w) = w[18]` (R72): 0 internal, 1 leaf. -/
def tag (w : NodeWord) : Bool := w.getLsbD 18

/-- `left(w) = w[17:9]` (R72). -/
def left (w : NodeWord) : NodeIdx := w.extractLsb' 9 9

/-- `right(w) = w[8:0]` (R72). -/
def right (w : NodeWord) : NodeIdx := w.extractLsb' 0 9

/-- `sym(w) = w[7:0]` (R72), defined on every word whatever its tag. -/
def sym (w : NodeWord) : Byte := w.extractLsb' 0 8

/-- The reserved field `w[17:8]` of a leaf word (R73). -/
def reserved (w : NodeWord) : BitVec 10 := w.extractLsb' 8 10

/-- `dec(w)` (R78): total on every 19-bit word, never "invalid" (R75). -/
def decode (w : NodeWord) : Instr :=
  if tag w then .leaf (sym w) else .int (left w) (right w)

/-- Why a number is no node word. -/
inductive DecodeError where
  /-- The number needs more than `NW` = 19 bits, so no word of node memory holds it (R70, R94). -/
  | widerThanNodeWord
deriving DecidableEq, Repr

/-- Decode a number laid out as a node word, bit 0 least significant (R7). -/
def decodeNat (w : Nat) : Except DecodeError Instr :=
  if w < 2 ^ 19 then .ok (decode (BitVec.ofNat 19 w)) else .error .widerThanNodeWord

/-- The instruction read from a table word of `nbits` bits; bits above `nbits` are 0. -/
def decodeTableWord (nbits w : Nat) : Option Instr :=
  match decodeNat (w % 2 ^ nbits) with
  | .ok i => some i
  | .error _ => none

/-- `encINT(l, r) = (l << 9) | r` (R78), the word `0 ++ left ++ right` (R71). -/
def encINT (l r : NodeIdx) : NodeWord := (l.setWidth 19 <<< 9) ||| r.setWidth 19

/-- A leaf word with reserved bits `x`: `1 ++ x ++ s` (R73, R76). -/
def leafWord (x : BitVec 10) (s : Byte) : NodeWord := (0x40000#19 ||| (x.setWidth 19 <<< 8)) ||| s.setWidth 19

/-- `encLEAF(s) = 0x40000 | s` (R78): the canonical leaf word, reserved bits zero (R73). -/
def encLEAF (s : Byte) : NodeWord := 0x40000#19 ||| s.setWidth 19

/-- The word of an instruction (R78). -/
def encode : Instr → NodeWord
  | .int l r => encINT l r
  | .leaf s => encLEAF s

/-- The opcode table's mask, the same for both rows (R75). -/
def opcodeMask : NodeWord := 0x40000#19

/-- The opcode table's match value of an instruction's row (R75). -/
def opcodeMatch : Instr → NodeWord
  | .int _ _ => 0x00000#19
  | .leaf _ => 0x40000#19

end Sys2Proof
end

