-- ==== Sys2Proof/Machine/Operands.lean ====
section
/-! DEFINITION. Operand forms (spec/30_encoding.md R72, R74): the child a bit selects, and the symbol field of any word. -/

namespace Sys2Proof.Machine

/-- The child selected by input bit `b`: `l` on 0, `r` on 1 (R74, R101). -/
def selectChild (l r : NodeIdx) (b : Bit) : NodeIdx := if b then r else l

/-- `child(w, b)` on a node word (R74). -/
def child (w : NodeWord) (b : Bit) : NodeIdx := selectChild (left w) (right w) b

/-- `sym(w)` of the word `INT l, r`: bits 7:0, which are the low bits of `right` (R72: "`sym(w)` overlaps the low
8 bits of `right(w)`"). `l` takes no part. -/
def symOfInt (_l r : NodeIdx) : Byte := r.extractLsb' 0 8

/-- `sym(w)` of the word `LEAF s` (R72, R73). -/
def symOfLeaf (s : Byte) : Byte := s

end Sys2Proof.Machine
end

