-- ==== Sys2Proof/Machine/Regs.lean ====
section
/-! DEFINITION. The contents of the registers `st` and `err` as enumerated types, with the codes of spec/10_state.md R21 and R23. -/

namespace Sys2Proof.Machine

/-- The controller state `st` (R21). The three unused encodings are no configuration of the model (R21, R119;
DESIGN CHOICE of the spec's U7, log 14, safe). -/
inductive St where
  /-- At a symbol boundary; about to test whether a bit remains. -/
  | atRoot
  /-- Walking; about to test whether the node under the cursor is internal. -/
  | descending
  /-- The node under the cursor is a leaf; about to emit its symbol. -/
  | emit
  /-- Terminal: the bit source was empty at a symbol boundary. -/
  | done
  /-- Terminal: the bit source ran out mid-symbol. -/
  | fault
deriving DecidableEq, Repr, Inhabited

/-- The error register `err` (R23). -/
inductive ErrCode where
  /-- `ERR_NONE`: no fault recorded. -/
  | none
  /-- `ERR_TRUNCATED`: `TruncatedStream`. -/
  | truncated
deriving DecidableEq, Repr, Inhabited

/-- The 3-bit encoding of `st` (R21, D9). -/
def St.code : St → BitVec 3
  | .atRoot => 0b000#3
  | .descending => 0b001#3
  | .emit => 0b010#3
  | .done => 0b011#3
  | .fault => 0b100#3

/-- The 2-bit encoding of `err`, as the pins `err` carry it (R23, R138). -/
def ErrCode.code : ErrCode → BitVec 2
  | .none => 0b00#2
  | .truncated => 0b01#2

end Sys2Proof.Machine
end

