-- ==== Sys2Proof/Config.lean ====
section
/-! DEFINITION. The parameters of the block (spec/00_scope.md R5) and the values the spec leaves open, as constants without a body. -/

namespace Sys2Proof.Config

/-- `NSYM`: number of symbols (R2, R5). -/
def nsym : Nat := 256

/-- `SYMW`: width of a symbol (R5). -/
def symw : Nat := 8

/-- `AW`: width of a node index (R5, D2). R5 lets a model take a larger value; this one fixes 9 (log 13). -/
def aw : Nat := 9

/-- `NNODES`: number of words of node memory (R5, D2). -/
def nnodes : Nat := 512

/-- `NW`: width of a node word (R5, D3). -/
def nw : Nat := 19

/-- `ROOT`: node index of the tree root (R5, R54, D4). -/
def root : NodeIdx := 0#9

/-- `STW`: width of the state register (R5, D9). -/
def stw : Nat := 3

/-- `ERRW`: width of the error register (R5, D8). -/
def errw : Nat := 2

/-- `st` before the first reset: unspecified (R31, U9), a free value (log 11, safe). -/
opaque powerUpSt : Machine.St

/-- `cursor` before the first reset: unspecified (R31, U9), a free value (log 11, safe). -/
opaque powerUpCursor : NodeIdx

/-- `err` before the first reset: unspecified (R31, U9), a free value (log 11, safe). -/
opaque powerUpErr : Machine.ErrCode

/-- `bs_bit` at stream position `pos` while `bs_has_next = 0`: any value (R130, U14), a free value (log 12, safe). -/
opaque idleBsBit : Nat → Bit

/-- Whether the host's line reader takes this spelling of an integer (signs, spaces, leading zeros) as a symbol
line: not stated (N16, U18), a free value (log 15, safe). -/
opaque acceptsSymbolSpelling : List Char → Bool

/-- The two orders in which a byte can be unpacked into bits (D17). -/
inductive BitOrder where
  | msbFirst
  | lsbFirst
deriving DecidableEq, Repr, Inhabited

/-- `BIT_ORDER` of the bit source adapter: OPEN (R5, R51, D17), a free value the block never sees (log 18, safe). -/
opaque bitOrder : BitOrder

end Sys2Proof.Config
end

