-- ==== Sys2Proof/Machine/Memory.lean ====
section
/-! DEFINITION. Node memory (spec/20_memory.md R40 to R43, R54): 512 whole words of 19 bits as a canonical list of (index, word) pairs. The smallest addressable unit is the word (R41), so a cell holds a word, not a byte (log 2). -/

namespace Sys2Proof.Machine

/-- What an unlisted index reads as: the erased word `0x00000` (R77). The spec leaves an unwritten word
"unspecified until the host writes it" (R30). DESIGN CHOICE, unsafe (log 3). -/
def NodeMem.unlisted : NodeWord := 0x00000#19

/-- The word at index `a`. -/
def NodeMem.readAt (a : Nat) : NodeMem → NodeWord
  | [] => NodeMem.unlisted
  | (k, w) :: m => if k = a then w else NodeMem.readAt a m

/-- `NodeRead(i)` (R42): no side effect, always succeeds. -/
def NodeMem.read (m : NodeMem) (i : NodeIdx) : NodeWord := NodeMem.readAt i.toNat m

/-- A cell in front of a list, left out where it says what an unlisted index reads as. -/
def NodeMem.consCell (a : Nat) (w : NodeWord) (m : NodeMem) : NodeMem :=
  if w = NodeMem.unlisted then m else (a, w) :: m

/-- Set the word at index `a`, keeping the canonical form. -/
def NodeMem.writeAt (a : Nat) (w : NodeWord) : NodeMem → NodeMem
  | [] => NodeMem.consCell a w []
  | (k, v) :: m =>
    if a < k then NodeMem.consCell a w ((k, v) :: m)
    else if a = k then NodeMem.consCell a w m
    else (k, v) :: NodeMem.writeAt a w m

/-- The host's write of one word (R43). The block has no such move. -/
def NodeMem.write (m : NodeMem) (i : NodeIdx) (w : NodeWord) : NodeMem := NodeMem.writeAt i.toNat w m

/-- The canonical form of the cells from index `lo` on. -/
def NodeMem.wfFrom (lo : Nat) : NodeMem → Bool
  | [] => true
  | (k, w) :: m => decide (lo ≤ k) && decide (k < Config.nnodes) && decide (w ≠ NodeMem.unlisted) && NodeMem.wfFrom (k + 1) m

/-- The canonical form: indices strictly rising, below `NNODES`, no cell equal to an unlisted one. -/
def NodeMem.wf (m : NodeMem) : Bool := NodeMem.wfFrom 0 m

/-- Write consecutive words from index `a` on, as the host tool does from node 0 (R87): "leaves every other word
of node memory as it was". Indices at or above `NNODES` do not exist and are not written. -/
def NodeMem.writeImage (a : Nat) (ws : List NodeWord) (m : NodeMem) : NodeMem :=
  match ws with
  | [] => m
  | w :: ws => NodeMem.writeImage (a + 1) ws (if a < Config.nnodes then NodeMem.writeAt a w m else m)

end Sys2Proof.Machine
end

