-- ==== Sys2Proof/Machine/State.lean ====
section
/-! DEFINITION. The state of the machine: the block's three registers, its reset input, node memory, and the two streams (spec/10_state.md). -/

namespace Sys2Proof.Machine

/-- The whole machine as plain data. -/
structure State where
  /-- The controller state (R20, R21). -/
  st : St
  /-- The node index the walker stands on, the program counter (R22). -/
  cursor : NodeIdx
  /-- The cause of the fault (R23). -/
  err : ErrCode
  /-- The level on the reset pin at the next clock edge (R130, R132, R170; log 6). -/
  rst : Bool
  /-- Node memory `T` (R28, R40 to R43). -/
  nodes : NodeMem
  /-- The bit source's whole stream (R26). -/
  bits : List Bit
  /-- Bits already read (R26). -/
  pos : Nat
  /-- The byte sink's contents, oldest first (R27). -/
  out : List Byte
deriving DecidableEq, Repr

/-- What stops the machine. The block's own exception is no stop: it is taken, into `St.fault` (log 8). -/
inductive Fault where
  /-- The bit source's own failure: `BitRead` "fails if called when no bit remains" (R47). Raised by `bitRead`
  alone; no step provokes it (R158). Safe (log 9). -/
  | bitSourceEmpty
deriving DecidableEq, Repr

/-- What the model gives no meaning. -/
inductive Refusal where
  /-- An instruction without a meaning yet. Raised by no arm of this model. Safe. -/
  | notModelled (mnemonic : String)
  /-- A host write of node memory outside reset (R43, R174, U5). Raised by `hostWriteNode`. Safe for claims about
  the move; that runs never meet it is a premise on the host (log 10). -/
  | nodeWriteDuringRun
  /-- A host move of the bit source outside reset (R48, R135, R174). Raised by `hostPresentSource`. Safe (log 10). -/
  | sourceMovedDuringRun
  /-- A host preparation of the sink outside reset (R173). Raised by `hostPrepareSink`. Safe (log 10). -/
  | sinkPreparedDuringRun
deriving DecidableEq, Repr

/-- The machine right after reset (R30, R120): the registers at their reset values, reset released, no node word
written, no stream presented, nothing emitted. `rst`, `bits` and `nodes` are DESIGN CHOICE, unsafe (logs 3 and 4). -/
def State.reset : State where
  st := .atRoot
  cursor := Config.root
  err := .none
  rst := false
  nodes := []
  bits := []
  pos := 0
  out := []

end Sys2Proof.Machine
end

