-- ==== Sys2Proof/Machine/Ops.lean ====
section
/-! DEFINITION. The named operations of a step (spec/00_scope.md R9): node fetch, bit source, byte sink, register writes, taking TruncatedStream, and reset, the only way out of Fault. -/

namespace Sys2Proof.Machine

/-- The outcome of a step or of a host move. -/
abbrev StepOutcome := Host.Outcome State Fault Refusal

/-- `w = NodeRead(cursor)` (R22, R110): the block's only addressing mode (R104). -/
def fetch (s : State) : NodeWord := NodeMem.read s.nodes s.cursor

/-- `HasNext()` (R46): no side effect. -/
def hasNext (s : State) : Bool := decide (s.pos < s.bits.length)

/-- `st <- x`. -/
def setSt (x : St) (s : State) : State := { s with st := x }

/-- `cursor <- i`: the block's control transfer (R9, R104). -/
def setCursor (i : NodeIdx) (s : State) : State := { s with cursor := i }

/-- `BitRead()` (R47): the next bit, and `pos` one greater; the interface's failing case where no bit remains. -/
def bitRead (s : State) : Host.Outcome (Bit × State) Fault Refusal :=
  match s.bits[s.pos]? with
  | some b => .next (b, { s with pos := s.pos + 1 })
  | none => .fault .bitSourceEmpty

/-- `Emit(b)` (R50): append one byte to the sink. -/
def emitByte (b : Byte) (s : State) : State := { s with out := s.out ++ [b] }

/-- `raise TruncatedStream(cursor)` (R114, R152): `st <- Fault`, `err <- ERR_TRUNCATED`, and nothing else. No pc or
status is saved anywhere: "the saved state is the configuration itself". -/
def raiseTruncatedStream (s : State) : State := { s with st := .fault, err := .truncated }

/-- Reset at a clock edge (R170, R30): writes the three registers and touches nothing else (R171). It is the block's
only system operation and the only way out of Done or Fault (R144, R156): there is no return from the exception. -/
def resetBlock (s : State) : State := { s with st := .atRoot, cursor := Config.root, err := .none }

/-- AtRoot (R111, R112): stop where the stream is empty, otherwise start a symbol at the root. The node word is not
used and no bit is read. -/
def startOrFinish (s : State) : State :=
  if hasNext s then setSt .descending (setCursor Config.root s) else setSt .done s

/-- Emit (R116): the symbol to the sink, the cursor to the root, AtRoot. -/
def emitAndRestart (x : Byte) (s : State) : State :=
  setSt .atRoot (setCursor Config.root (emitByte x s))

/-- The success path of an internal node (R113): consume one bit and move to the child it selects. -/
def takeBranch (l r : NodeIdx) (s : State) : StepOutcome :=
  match bitRead s with
  | .next (b, s') => .next (setCursor (selectChild l r b) s')
  | .fault f => .fault f
  | .refused q => .refused q

/-- One controller step with the word under the cursor given by its two parts (R110, R119): what it does in
Descending, and its `sym` field. AtRoot, Done and Fault do not use the word. -/
def controllerStep (descend : State → StepOutcome) (x : Byte) (s : State) : StepOutcome :=
  match s.st with
  | .atRoot => .next (startOrFinish s)
  | .descending => descend s
  | .emit => .next (emitAndRestart x s)
  | .done => .next s
  | .fault => .next s

end Sys2Proof.Machine
end

