-- ==== Sys2Proof/Machine/Branch.lean ====
section
/-! DEFINITION. The branch family: `INT l, r` (spec/40_node_ops.md R101). -/

namespace Sys2Proof.Machine

/-- `INT l, r` in Descending (R101, R113, R114): the stream is tested in the same step, before the read (R158). -/
def descendInt (l r : NodeIdx) (s : State) : StepOutcome :=
  if hasNext s then takeBranch l r s else .next (raiseTruncatedStream s)

/-- One step with `INT l, r` under the cursor. In Emit, which does not test the tag (R116), the word's `sym` field is
emitted; no reachable state does so (R29 item 3; log 7). -/
def execInt (l r : NodeIdx) (s : State) : StepOutcome :=
  controllerStep (descendInt l r) (symOfInt l r) s

end Sys2Proof.Machine
end

