-- ==== Sys2Proof/Machine/Output.lean ====
section
/-! DEFINITION. The output family: `LEAF s` (spec/40_node_ops.md R102). -/

namespace Sys2Proof.Machine

/-- `LEAF s` in Descending (R102 step 1, R115): recognised, whatever the stream; nothing read or emitted. -/
def recogniseLeaf (s : State) : StepOutcome := .next (setSt .emit s)

/-- One step with `LEAF x` under the cursor (R102): recognised in Descending, emitted in Emit (R116). -/
def execLeaf (x : Byte) (s : State) : StepOutcome :=
  controllerStep recogniseLeaf (symOfLeaf x) s

end Sys2Proof.Machine
end

