-- ==== Sys2Proof/Machine/Dispatch.lean ====
section
/-! DEFINITION. One arm per constructor of Instr: one step with that word under the cursor. -/

namespace Sys2Proof.Machine

def exec (i : Instr) (s : State) : Host.Outcome State Fault Refusal :=
  match i with
  | .int l r => Sys2Proof.Machine.execInt l r s
  | .leaf x => Sys2Proof.Machine.execLeaf x s

end Sys2Proof.Machine
end

