-- ==== Sys2Proof/Machine/Fetch.lean ====
section
/-! DEFINITION. The instruction a step runs: the decoded word under the cursor (spec/10_state.md R22), and how a word is placed there. -/

namespace Sys2Proof.Machine

/-- The instruction under the cursor. -/
def fetchInstr (s : State) : Instr := decode (fetch s)

/-- A state whose next step runs the word `w` (log 5): the word under the cursor, the controller in Descending (where
a node word is executed, R100), reset released. -/
def placeWord (w : NodeWord) (s : State) : State :=
  { s with nodes := NodeMem.write s.nodes s.cursor w, st := .descending, rst := false }

end Sys2Proof.Machine
end

