-- ==== Sys2Proof/Machine/Step.lean ====
section
/-! DEFINITION. One clock edge (spec/42_ports.md R131, R132): reset wins over every transition, otherwise one step with the word under the cursor. -/

namespace Sys2Proof.Machine

/-- One rising clock edge: with `rst = 1` the reset of R170, with `rst = 0` one step of R110. -/
def step (s : State) : Host.Outcome State Fault Refusal :=
  if s.rst then .next (resetBlock s) else exec (fetchInstr s) s

/-- `s` with the table word `w` of `nbits` bits where the next step runs it (log 5). -/
def State.withFetchWord (s : State) (nbits w : Nat) : State :=
  placeWord (BitVec.ofNat 19 (w % 2 ^ nbits)) s

end Sys2Proof.Machine
end

