-- ==== Sys2Proof/Machine/Tree.lean ====
section
/-! DEFINITION. The tree an image denotes, and well-formed images (spec/20_memory.md R44, R45). -/

namespace Sys2Proof.Machine

/-- A code tree: a leaf with one symbol, or an internal node with exactly two children (R44, R70, C2). -/
inductive CodeTree where
  | leaf (s : Byte)
  | node (l r : CodeTree)
deriving DecidableEq, Repr, Inhabited

/-- A leaf of a tree: its bit path from the root (its code word) and its symbol. -/
abbrev CodeWord := List Bit × Byte

/-- A code word one branch further from the root. -/
def underBranch (b : Bit) (c : CodeWord) : CodeWord := (b :: c.1, c.2)

/-- The leaves, left to right, each with its bit path; left is 0 (R80, R90). -/
def CodeTree.leaves : CodeTree → List CodeWord
  | .leaf s => [([], s)]
  | .node l r => l.leaves.map (underBranch false) ++ r.leaves.map (underBranch true)

/-- Number of nodes of a tree. -/
def CodeTree.size : CodeTree → Nat
  | .leaf _ => 1
  | .node l r => 1 + l.size + r.size

/-- The node reached from `i` along a bit path, following `left` and `right` of words with `tag = 0` (R44). A leaf's
"children fields are not followed". -/
def reach (m : NodeMem) (i : NodeIdx) : List Bit → Option NodeIdx
  | [] => some i
  | b :: p =>
    if tag (NodeMem.read m i) then none else reach m (child (NodeMem.read m i) b) p

/-- R44 (a): no index is reached by two different paths from `ROOT`. -/
def WellFormedImage (m : NodeMem) : Prop :=
  ∀ (p q : List Bit) (i : NodeIdx), reach m Config.root p = some i → reach m Config.root q = some i → p = q

/-- `tree(i)` (R44): the tree denoted at index `i`. -/
inductive Denotes (m : NodeMem) : NodeIdx → CodeTree → Prop where
  | leaf (i : NodeIdx) (h : tag (NodeMem.read m i) = true) : Denotes m i (.leaf (sym (NodeMem.read m i)))
  | node (i : NodeIdx) (l r : CodeTree) (h : tag (NodeMem.read m i) = false)
      (hl : Denotes m (left (NodeMem.read m i)) l) (hr : Denotes m (right (NodeMem.read m i)) r) :
      Denotes m i (.node l r)

/-- `tree(i)` computed to a depth of `n` nodes; none where the tree goes deeper. -/
def treeAt : Nat → NodeMem → NodeIdx → Option CodeTree
  | 0, _, _ => none
  | n + 1, m, i =>
    if tag (NodeMem.read m i) then some (.leaf (sym (NodeMem.read m i)))
    else
      match treeAt n m (left (NodeMem.read m i)), treeAt n m (right (NodeMem.read m i)) with
      | some l, some r => some (.node l r)
      | _, _ => none

/-- The tree an image denotes (R44). A path of a well-formed image visits distinct indices, so it has at most
`NNODES` nodes. -/
def denotedTree (m : NodeMem) : Option CodeTree := treeAt Config.nnodes m Config.root

/-- The walk of R44 (a) as a computation: visit every index of `todo` and everything below it; fail at the first index
seen before. -/
def imageCheck (m : NodeMem) : Nat → List NodeIdx → List NodeIdx → Bool
  | _, [], _ => true
  | 0, _ :: _, _ => false
  | n + 1, i :: todo, seen =>
    if seen.contains i then false
    else if tag (NodeMem.read m i) then imageCheck m n todo (i :: seen)
    else imageCheck m n (left (NodeMem.read m i) :: right (NodeMem.read m i) :: todo) (i :: seen)

/-- Whether an image is well-formed, computed: at most `NNODES` indices can be visited before one repeats. -/
def wellFormedImage (m : NodeMem) : Bool := imageCheck m Config.nnodes [Config.root] []

end Sys2Proof.Machine
end

