-- ==== Sys2Proof/Machine/Codec.lean ====
section
/-! DEFINITION. Host software: the code-table text, `load`, the node memory image, and `save` (spec/30_encoding.md R80 to R90). No part of it is implemented by the block (R4). -/

namespace Sys2Proof.Machine

/-- The host-side errors (R157): the document's three and this spec's two. -/
inductive HostError where
  /-- No symbol has positive frequency (R91). -/
  | emptyAlphabet
  /-- The text is no code table (R85). -/
  | malformedTable
  /-- Two paths are equal or one is a strict prefix of another (R86). -/
  | ambiguousCode
  /-- A loaded tree has an absent child (R89). -/
  | incompleteCode
  /-- `load` created more than `NNODES` nodes (R88). -/
  | tooManyNodes
deriving DecidableEq, Repr

/-- One line of text, without its newline (R83; the newline sequence is the line source's and sink's, N16). -/
abbrev Line := List Char

/-- One or more decimal digits. -/
def isDigits (l : Line) : Bool := !l.isEmpty && l.all Char.isDigit

/-- The number decimal digits spell. -/
def digitsValue (l : Line) : Nat := l.foldl (fun n c => 10 * n + (c.toNat - 48)) 0

/-- A decimal integer string in its plain form: digits without a leading zero (R81). -/
def isPlainDecimal (l : Line) : Bool := isDigits l && (decide (l = ['0']) || decide (l.head? ≠ some '0'))

/-- The line without leading and trailing spaces. -/
def trimSpaces (l : Line) : Line := ((l.dropWhile (· == ' ')).reverse.dropWhile (· == ' ')).reverse

/-- The integer a line spells in the widest reading: spaces around it, a sign, leading zeros. -/
def spelledInt (l : Line) : Option Int :=
  match trimSpaces l with
  | '-' :: ds => if isDigits ds then some (-(digitsValue ds : Int)) else none
  | '+' :: ds => if isDigits ds then some (digitsValue ds : Int) else none
  | ds => if isDigits ds then some (digitsValue ds : Int) else none

/-- Parse a symbol line (R81, R84, R85). A line that spells no integer, or one outside 0 to 255 (D20), is
`MalformedTable`. Whether a spelling other than the plain one is taken is left open (N16): a free value (log 15). -/
def parseSymbol (l : Line) : Except HostError Byte :=
  match spelledInt l with
  | none => .error .malformedTable
  | some v =>
    if isPlainDecimal l || Config.acceptsSymbolSpelling l then
      if 0 ≤ v ∧ v < 256 then .ok (BitVec.ofNat 8 v.toNat) else .error .malformedTable
    else .error .malformedTable

/-- Parse a path line: '0' is a left turn, '1' a right turn, any other character `MalformedTable` (R82, R85). -/
def parsePath : Line → Except HostError (List Bit)
  | [] => .ok []
  | c :: cs =>
    if c = '0' ∨ c = '1' then
      match parsePath cs with
      | .ok p => .ok (decide (c = '1') :: p)
      | .error e => .error e
    else .error .malformedTable

/-- A node while a table is being loaded: children may be absent (R84, C4). -/
inductive LoadNode where
  | leaf (s : Byte)
  | int (l r : Option Nat)
deriving DecidableEq, Repr

/-- The node at an index of the growing list; every index `load` holds is in the list. -/
def loadNodeAt (ns : List LoadNode) (c : Nat) : LoadNode := ns.getD c (.int none none)

/-- The child of an internal load node on bit `b`. -/
def loadChild (l r : Option Nat) (b : Bit) : Option Nat := if b then r else l

/-- Walk a path from node `c`, creating absent children (R84): the grown list and the node landed on. The first test
of `AmbiguousCode`: "an earlier path is a strict prefix of this one". -/
def walkPath (ns : List LoadNode) (c : Nat) : List Bit → Except HostError (List LoadNode × Nat)
  | [] => .ok (ns, c)
  | b :: p =>
    match loadNodeAt ns c with
    | .leaf _ => .error .ambiguousCode
    | .int l r =>
      match loadChild l r b with
      | some j => walkPath ns j p
      | none =>
        walkPath (ns.set c (if b then .int l (some ns.length) else .int (some ns.length) r) ++ [.int none none])
          ns.length p

/-- Convert the node landed on into a leaf (R84), with the second and third tests of `AmbiguousCode`. -/
def placeLeaf (ns : List LoadNode) (c : Nat) (s : Byte) : Except HostError (List LoadNode) :=
  match loadNodeAt ns c with
  | .leaf _ => .error .ambiguousCode
  | .int none none => .ok (ns.set c (.leaf s))
  | .int _ _ => .error .ambiguousCode

/-- Load one code word into the growing list (R84). -/
def loadEntry (ns : List LoadNode) (c : CodeWord) : Except HostError (List LoadNode) :=
  match walkPath ns 0 c.1 with
  | .ok (ns', j) => placeLeaf ns' j c.2
  | .error e => .error e

/-- One (symbol line, path line) pair (R81, R82, R84). -/
def parsePair (sline pline : Line) : Except HostError CodeWord :=
  match parseSymbol sline with
  | .error e => .error e
  | .ok s =>
    match parsePath pline with
    | .error e => .error e
    | .ok p => .ok (p, s)

/-- The loop of R84 over the lines left, two at a time. -/
def loadLines (ns : List LoadNode) : List Line → Except HostError (List LoadNode)
  | [] => .ok ns
  | [_] => .error .malformedTable
  | sline :: pline :: rest =>
    match parsePair sline pline with
    | .error e => .error e
    | .ok c =>
      match loadEntry ns c with
      | .error e => .error e
      | .ok ns' => loadLines ns' rest

/-- `load(source)` (R84): the nodes in creation order, the shared root first. -/
def load (table : List Line) : Except HostError (List LoadNode) := loadLines [.int none none] table

/-- The node word of a loaded node; none where a child is absent (R71, R87, R89). -/
def loadNodeWord : LoadNode → Option NodeWord
  | .leaf s => some (encLEAF s)
  | .int (some l) (some r) => some (encINT (BitVec.ofNat 9 l) (BitVec.ofNat 9 r))
  | .int _ _ => none

/-- The image of a loaded tree: the words of its nodes in creation order, node 0 at `ROOT` (R87). Refused for more than
`NNODES` nodes (R88) and for an absent child (R89); which is tested first is DESIGN CHOICE (log 16). -/
def imageOf (ns : List LoadNode) : Except HostError (List NodeWord) :=
  if Config.nnodes < ns.length then .error .tooManyNodes
  else
    match ns.mapM loadNodeWord with
    | some ws => .ok ws
    | none => .error .incompleteCode

/-- The host tool: from a code table to the image (R84, R87). -/
def assembleTable (table : List Line) : Except HostError (List NodeWord) :=
  match load table with
  | .ok ns => imageOf ns
  | .error e => .error e

/-- One decimal digit. -/
def digitChar (n : Nat) : Char := Char.ofNat (48 + n)

/-- A symbol's integer value as a decimal string (R81, R90), bare: no spaces, no sign, no leading zeros. The spec does
not state these for a symbol line (N16, U18): DESIGN CHOICE, unsafe (log 25). -/
def symbolLine (s : Byte) : Line :=
  if s.toNat < 10 then [digitChar s.toNat]
  else if s.toNat < 100 then [digitChar (s.toNat / 10), digitChar (s.toNat % 10)]
  else [digitChar (s.toNat / 100), digitChar (s.toNat / 10 % 10), digitChar (s.toNat % 10)]

/-- A path as a string over '0' and '1' (R82). -/
def pathLine (p : List Bit) : Line := p.map fun b => if b then '1' else '0'

/-- The two lines of one leaf (R90), the symbol in the bare form of log 25. -/
def codeWordLines (c : CodeWord) : List Line := [symbolLine c.2, pathLine c.1]

/-- `save(tree, sink)` (R90): two lines per leaf, in left-to-right pre-order. -/
def save (t : CodeTree) : List Line := t.leaves.flatMap codeWordLines

/-- `save` of the tree an image denotes: the block's disassembler (R90). -/
def disassembleImage (m : NodeMem) : Option (List Line) := (denotedTree m).map save

/-- The words of a tree in pre-order, the node at index `a` first: the numbering `load` gives a table in the order
`save` writes it (R87). -/
def preorderImage (a : Nat) : CodeTree → List NodeWord
  | .leaf s => [encLEAF s]
  | .node l r =>
    encINT (BitVec.ofNat 9 (a + 1)) (BitVec.ofNat 9 (a + 1 + l.size)) ::
      (preorderImage (a + 1) l ++ preorderImage (a + 1 + l.size) r)

end Sys2Proof.Machine
end

