-- ==== Sys2Proof/Machine/Builder.lean ====
section
/-! DEFINITION. Host software: `build`, from frequencies to a tree (spec/30_encoding.md R91). The tie-break is a parameter (U1, log 17). -/

namespace Sys2Proof.Machine

/-- A candidate: its aggregate frequency and its tree (R91). -/
abbrev Candidate := Nat × CodeTree

/-- One leaf candidate per symbol with positive frequency, in symbol order (R91). -/
def leafCandidates (freq : Byte → Nat) : List Candidate :=
  ((List.range Config.nsym).map (BitVec.ofNat 8)).filterMap fun s =>
    if 0 < freq s then some (freq s, .leaf s) else none

/-- The least frequency among candidates. -/
def leastFrequency : List Candidate → Nat
  | [] => 0
  | [c] => c.1
  | c :: cs => min c.1 (leastFrequency cs)

/-- The positions of the candidates of least frequency, in the list's order. -/
def lowestPositions (cs : List Candidate) : List Nat :=
  (List.range cs.length).filter fun p => decide ((cs[p]?).map Prod.fst = some (leastFrequency cs))

/-- A tie-break: which of the candidates of least frequency, listed in insertion order, is removed (U1). -/
abbrev TieBreak := List Candidate → Nat

/-- Insertion sequence number, lower first: the tie-break of the worked example (D21). -/
def insertionOrder : TieBreak := fun _ => 0

/-- The position of the candidate to remove. -/
def lowestPosition (tie : TieBreak) (cs : List Candidate) : Nat :=
  (lowestPositions cs).getD
    (tie ((lowestPositions cs).filterMap fun p => cs[p]?) % (lowestPositions cs).length) 0

/-- The candidates left when one of least frequency is removed. -/
def removeLowest (tie : TieBreak) (cs : List Candidate) : List Candidate := cs.eraseIdx (lowestPosition tie cs)

/-- One round (R91): remove the two lowest-frequency candidates, the first-removed becoming left, and add their parent
with the sum of their frequencies at the end, as the newest. -/
def mergeTwo (tie : TieBreak) (cs : List Candidate) : List Candidate :=
  match (cs[lowestPosition tie cs]?) with
  | none => cs
  | some a =>
    match ((removeLowest tie cs)[lowestPosition tie (removeLowest tie cs)]?) with
    | none => cs
    | some b => removeLowest tie (removeLowest tie cs) ++ [(a.1 + b.1, .node a.2 b.2)]

/-- Rounds until one candidate remains, "that candidate is the tree root" (R91). The arm for 0 rounds left over two
candidates or more is reached by no call of `build`: every round removes a candidate. -/
def mergeAll (tie : TieBreak) : Nat → List Candidate → Except HostError CodeTree
  | _, [] => .error .emptyAlphabet
  | _, [c] => .ok c.2
  | 0, c :: _ :: _ => .ok c.2
  | n + 1, c :: d :: cs => mergeAll tie n (mergeTwo tie (c :: d :: cs))

/-- `build(frequencies)` (R91). A round removes one candidate, so as many rounds as candidates are enough. -/
def build (tie : TieBreak) (freq : Byte → Nat) : Except HostError CodeTree :=
  mergeAll tie (leafCandidates freq).length (leafCandidates freq)

end Sys2Proof.Machine
end

