-- ==== Sys2Proof/Machine/Flags.lean ====
section
/-! DEFINITION. The status levels `done` and `fault` (spec/10_state.md R24, 42_ports.md R138). The block has no condition codes. -/

namespace Sys2Proof.Machine

/-- `done = (st = Done)` (R24, R138). -/
def doneFlag (x : St) : Bool := decide (x = .done)

/-- `fault = (st = Fault)` (R24, R138). -/
def faultFlag (x : St) : Bool := decide (x = .fault)

end Sys2Proof.Machine
end

