-- ==== Sys2Proof/Machine/HostOps.lean ====
section
/-! DEFINITION. What the host does between steps (spec/70_reset_and_hazards.md R173 to R175): drive reset, write node memory, present the stream, prepare the sink, and the boot sequence made of them. -/

namespace Sys2Proof.Machine

/-- Before the first reset after power-up: the registers are any value (R31, U9; log 11). The spec gives no level of
`rst`, no stream and no sink contents there either; taking `State.reset`'s (`rst` 0, empty stream, `pos` 0, empty sink)
is DESIGN CHOICE, unsafe (log 22), and so a step from here is a controller step until the host asserts `rst`. The model
defines runs only from reset on (`State.launch`, `boot`). -/
def State.powerUp : State :=
  { State.reset with st := Config.powerUpSt, cursor := Config.powerUpCursor, err := Config.powerUpErr }

/-- Drive `rst` to 1 (R173 item 1). The level opens the host's window at once, before any edge samples it: DESIGN
CHOICE, unsafe (log 24). -/
def assertRst (s : State) : State := { s with rst := true }

/-- Drive `rst` to 0 (R173 item 5): the run begins at the next edge. Not refused where no edge sampled the pulse, which
then has no effect on the registers (R170): DESIGN CHOICE, unsafe (log 24). -/
def releaseRst (s : State) : State := { s with rst := false }

/-- Write one word of node memory, allowed "only while `rst` is asserted" (R43). Asserted is read as the level of the
pin, whether or not an edge has sampled it: DESIGN CHOICE, unsafe (log 24). -/
def hostWriteNode (i : NodeIdx) (w : NodeWord) (s : State) : StepOutcome :=
  if s.rst then .next { s with nodes := NodeMem.write s.nodes i w } else .refused .nodeWriteDuringRun

/-- Present a bit source positioned at its first bit (R173 item 3); the source is rewound or replaced "during reset"
(R135), read as the level of the pin: DESIGN CHOICE, unsafe (log 24). -/
def hostPresentSource (bits : List Bit) (s : State) : StepOutcome :=
  if s.rst then .next { s with bits := bits, pos := 0 } else .refused .sourceMovedDuringRun

/-- Prepare the sink: empty (R173 item 4), under the same reading of reset (log 24). -/
def hostPrepareSink (s : State) : StepOutcome :=
  if s.rst then .next { s with out := [] } else .refused .sinkPreparedDuringRun

/-- One move after another; a stop stays. -/
def andThen (o : StepOutcome) (f : State → StepOutcome) : StepOutcome :=
  match o with
  | .next s => f s
  | .fault r => .fault r
  | .refused r => .refused r

/-- Write consecutive words from index `a` on (R87, R173 item 2). Words past the last index have nowhere to go. -/
def hostWriteImage (a : Nat) (ws : List NodeWord) (s : State) : StepOutcome :=
  match ws with
  | [] => .next s
  | w :: ws =>
    if a < Config.nnodes then
      andThen (hostWriteNode (BitVec.ofNat 9 a) w s) (hostWriteImage (a + 1) ws)
    else .next s

/-- The boot duties in the order of R173, with one clock edge under reset ("One edge with `rst = 1` is enough",
R170). A new run repeats it (R175). -/
def boot (image : List NodeWord) (bits : List Bit) (s : State) : StepOutcome :=
  andThen (step (assertRst s)) fun s =>
  andThen (hostWriteImage 0 image s) fun s =>
  andThen (hostPresentSource bits s) fun s =>
  andThen (hostPrepareSink s) fun s =>
  .next (releaseRst s)

/-- The eight bits of a byte in the order the adapter delivers them (R51, D17). -/
def unpackByte (o : Config.BitOrder) (b : Byte) : List Bit :=
  match o with
  | .lsbFirst => (List.range 8).map b.getLsbD
  | .msbFirst => (List.range 8).map b.getMsbD

/-- The stream of a byte-oriented file, as the bit source adapter outside the block makes it (R51, D17; log 18), its
last `padding` bits left out: "the adapter must not deliver the padding" (R181). How the adapter knows the padding is in
no source (N13), so it is an argument; that it is the bits delivered last is DESIGN CHOICE, unsafe (log 23). -/
def adaptBytes (padding : Nat) (file : List Byte) : List Bit :=
  (file.flatMap (unpackByte Config.bitOrder)).rdrop padding

end Sys2Proof.Machine
end

