-- ==== Sys2Proof/Machine/Instances.lean ====
section
/-! DEFINITION. Several decoders on one tree (spec/20_memory.md R59, 60_exceptions.md R164): the product of single models. -/

namespace Sys2Proof.Machine

/-- Several blocks, each with its own registers, reset, bit source and sink; each holds the contents of the tree it
reads, whether through a port or a copy (`NM_SHARING`, D24; log 19). -/
abbrev Cluster := List State

/-- One clock edge of block `k` alone ("start independently", R164). -/
def stepOne (k : Nat) (cl : Cluster) : Host.Outcome Cluster Fault Refusal :=
  match cl[k]? with
  | none => .next cl
  | some s =>
    match step s with
    | .next t => .next (cl.set k t)
    | .fault r => .fault r
    | .refused r => .refused r

/-- One clock edge of every block. -/
def stepAll : Cluster → Host.Outcome Cluster Fault Refusal
  | [] => .next []
  | s :: c =>
    match step s with
    | .fault r => .fault r
    | .refused r => .refused r
    | .next t =>
      match stepAll c with
      | .next d => .next (t :: d)
      | .fault r => .fault r
      | .refused r => .refused r

/-- All blocks read the tree `m`. -/
def sharesTree (m : NodeMem) (cl : Cluster) : Bool := cl.all fun s => decide (s.nodes = m)

end Sys2Proof.Machine
end

