-- ==== Sys2Proof/Machine/Pins.lean ====
section
/-! DEFINITION. The pin-level block and its environment, cycle by cycle (spec/42_ports.md R130 to R139). -/

namespace Sys2Proof.Machine

/-- The whole clocked state of the block: 14 flip-flops (R20). -/
structure Regs where
  st : St
  cursor : NodeIdx
  err : ErrCode
deriving DecidableEq, Repr

/-- The input pins in one cycle, `clk` apart (R130). -/
structure PinsIn where
  rst : Bool
  nmRdata : NodeWord
  bsHasNext : Bool
  bsBit : Bit
deriving DecidableEq, Repr

/-- The output pins in one cycle (R130). -/
structure PinsOut where
  nmAddr : NodeIdx
  bsRead : Bool
  outValid : Bool
  outByte : Byte
  done : Bool
  fault : Bool
  err : BitVec 2
deriving DecidableEq, Repr

/-- The output pins as functions of the registers and the inputs of the same cycle: R132, R133 (`nm_addr`), R136
(`bs_read`), R137 (`out_valid`, `out_byte`), R138 (`done`, `fault`, `err`). `out_byte` with `out_valid = 0` is any value
(U14); carrying `nm_rdata[7:0]`, as R137 lets it, is DESIGN CHOICE, unsafe (log 12). -/
def blockOut (r : Regs) (i : PinsIn) : PinsOut where
  nmAddr := r.cursor
  bsRead := !i.rst && decide (r.st = .descending) && !(tag i.nmRdata) && i.bsHasNext
  outValid := !i.rst && decide (r.st = .emit)
  outByte := sym i.nmRdata
  done := doneFlag r.st
  fault := faultFlag r.st
  err := r.err.code

/-- The registers after the edge: the table of R139 for `rst = 0`, the reset of R170 for `rst = 1`. -/
def blockNext (r : Regs) (i : PinsIn) : Regs :=
  if i.rst then { st := .atRoot, cursor := Config.root, err := .none }
  else
    match r.st, tag i.nmRdata, i.bsHasNext with
    | .atRoot, _, false => { r with st := .done }
    | .atRoot, _, true => { r with st := .descending, cursor := Config.root }
    | .descending, false, true => { r with cursor := child i.nmRdata i.bsBit }
    | .descending, false, false => { r with st := .fault, err := .truncated }
    | .descending, true, _ => { r with st := .emit }
    | .emit, _, _ => { r with st := .atRoot, cursor := Config.root }
    | .done, _, _ => r
    | .fault, _, _ => r

/-- The registers of a state. -/
def State.regs (s : State) : Regs where
  st := s.st
  cursor := s.cursor
  err := s.err

/-- The contract of node memory and bit source (R134, R135): `nm_rdata = T[nm_addr]`, `bs_has_next` exactly when
`pos < |bits|`, `bs_bit = bits[pos]`. With no unread bit `bs_bit` is any value (U14). -/
def envIn (s : State) : PinsIn where
  rst := s.rst
  nmRdata := NodeMem.read s.nodes s.cursor
  bsHasNext := hasNext s
  bsBit := (s.bits[s.pos]?).getD (Config.idleBsBit s.pos)

/-- The pins of the block in the cycle before the next edge. -/
def pinsOf (s : State) : PinsOut := blockOut s.regs (envIn s)

/-- What the environment does at the edge: the source advances where `bs_read = 1` (R135), the sink takes the byte
where `out_valid = 1` (R137). -/
def envNext (o : PinsOut) (s : State) : State :=
  { s with
    pos := if o.bsRead then s.pos + 1 else s.pos
    out := if o.outValid then s.out ++ [o.outByte] else s.out }

/-- One cycle of the pin-level machine: block and environment at one edge. -/
def cycle (s : State) : State :=
  { envNext (pinsOf s) s with
    st := (blockNext s.regs (envIn s)).st
    cursor := (blockNext s.regs (envIn s)).cursor
    err := (blockNext s.regs (envIn s)).err }

end Sys2Proof.Machine
end

