-- ==== Sys2Proof/Machine/Run.lean ====
section
/-! DEFINITION. Runs (spec/41_controller.md R120, R126, R127): the initial configuration, k steps, the end of a run, the document's loop under fuel, and the events of both. -/

namespace Sys2Proof.Machine

/-- The initial configuration of a run over node memory `m` and stream `bits` (R120). -/
def State.launch (m : NodeMem) (bits : List Bit) : State :=
  { State.reset with nodes := m, bits := bits }

/-- `k` steps, stopping at the first fault or refusal. -/
def runSteps : Nat → State → StepOutcome
  | 0, s => .next s
  | k + 1, s =>
    match step s with
    | .next t => runSteps k t
    | .fault r => .fault r
    | .refused r => .refused r

/-- A run has ended when `st` is Done or Fault (R127). -/
def ended (s : State) : Bool := decide (s.st = .done) || decide (s.st = .fault)

/-- The result of an ended run: the triple (`st`, `out`, `cursor`) (R127). -/
structure RunEnd where
  st : St
  out : List Byte
  cursor : NodeIdx
deriving DecidableEq, Repr

/-- The result of a run whose present state is `s`; none while it has not ended (R127). -/
def result (s : State) : Option RunEnd :=
  if ended s then some { st := s.st, out := s.out, cursor := s.cursor } else none

/-- How the inner `while` of the document's loop ends (R120): at a leaf with bits left over, or truncated. -/
inductive WalkEnd where
  | atLeaf (c : NodeIdx) (rest : List Bit)
  | truncated (c : NodeIdx)
deriving DecidableEq, Repr

/-- The inner `while` of R120 from node `c`, over the unread bits. -/
def walk (m : NodeMem) (c : NodeIdx) : List Bit → WalkEnd
  | [] => if tag (NodeMem.read m c) then .atLeaf c [] else .truncated c
  | b :: bs =>
    if tag (NodeMem.read m c) then .atLeaf c (b :: bs) else walk m (child (NodeMem.read m c) b) bs

/-- `decode(T, bits)` of R120 as a big step: `n` rounds of the outer loop over the unread bits, `out` so far. None
where the loop has not returned by then (it need not return, R123). -/
def decodeLoop (m : NodeMem) : Nat → List Bit → List Byte → Option RunEnd
  | _, [], out => some { st := .done, out := out, cursor := Config.root }
  | 0, _ :: _, _ => none
  | n + 1, b :: bs, out =>
    match walk m Config.root (b :: bs) with
    | .truncated c => some { st := .fault, out := out, cursor := c }
    | .atLeaf c rest => decodeLoop m n rest (out ++ [sym (NodeMem.read m c)])

/-- What a run does at the two streams, and how it ends (R126). -/
inductive Event where
  /-- A bit read, and the node its cursor move leads to. -/
  | bitRead (b : Bit) (target : NodeIdx)
  /-- A byte emitted. -/
  | emitted (x : Byte)
  /-- The final stop: `st` becomes Done. -/
  | stopped
  /-- The final failure: `st` becomes Fault. -/
  | failed
deriving DecidableEq, Repr

/-- What the step from `s` to `t` does, read off the two configurations (R126): nothing where it neither reads a bit
nor emits a byte nor changes `st` to Done or Fault. -/
def observe (s t : State) : List Event :=
  (if s.pos < t.pos then (s.bits[s.pos]?).toList.map (fun b => Event.bitRead b t.cursor) else []) ++
  (t.out.drop s.out.length).map Event.emitted ++
  (if s.st ≠ .done ∧ t.st = .done then [Event.stopped] else []) ++
  (if s.st ≠ .fault ∧ t.st = .fault then [Event.failed] else [])

/-- The events of the first `k` steps from `s`. -/
def runEvents : Nat → State → List Event
  | 0, _ => []
  | k + 1, s =>
    match step s with
    | .next t => observe s t ++ runEvents k t
    | _ => []

/-- The bit reads of the inner `while` of R120. -/
def walkEvents (m : NodeMem) (c : NodeIdx) : List Bit → List Event
  | [] => []
  | b :: bs =>
    if tag (NodeMem.read m c) then []
    else
      .bitRead b (child (NodeMem.read m c) b) :: walkEvents m (child (NodeMem.read m c) b) bs

/-- The events of the first `n` rounds of the document's loop (R120, R126). -/
def loopEvents (m : NodeMem) : Nat → List Bit → List Event
  | 0, _ => []
  | _ + 1, [] => [.stopped]
  | n + 1, b :: bs =>
    walkEvents m Config.root (b :: bs) ++
    match walk m Config.root (b :: bs) with
    | .truncated _ => [.failed]
    | .atLeaf c rest => .emitted (sym (NodeMem.read m c)) :: loopEvents m n rest

end Sys2Proof.Machine
end

