-- ==== Sys2Proof/Safety.lean ====
section
/-! DEFINITION. What counts as a safe state: the invariants of the reachable configurations (spec/10_state.md R29). -/

namespace Sys2Proof.Machine

/-- The invariants of R29 that one configuration can show, with the canonical form of node memory and `pos <= |bits|`.
R29 item 4's "at least one bit was consumed since the last symbol boundary" is about the run and is stated of runs;
item 5 holds by the types of `st` and `err`; item 6 is stated of steps. -/
structure Inv (s : State) : Prop where
  /-- Item 1. -/
  atRoot_cursor : s.st = .atRoot → s.cursor = Config.root
  /-- Item 2. -/
  done_final : s.st = .done → s.cursor = Config.root ∧ s.err = .none ∧ s.pos = s.bits.length
  /-- Item 3. -/
  emit_leaf : s.st = .emit → tag (fetch s) = true
  /-- Item 4. -/
  fault_final : s.st = .fault → s.err = .truncated ∧ tag (fetch s) = false ∧ s.pos = s.bits.length
  /-- R23: `err = ERR_TRUNCATED` exactly when `st = Fault`. -/
  err_iff_fault : s.err = .truncated ↔ s.st = .fault
  /-- `pos` never passes the end of the stream (R47). -/
  pos_le : s.pos ≤ s.bits.length
  /-- Node memory keeps its canonical form. -/
  nodes_wf : NodeMem.wf s.nodes = true

end Sys2Proof.Machine
end

