-- ==== Sys2Proof/WellFormed.lean ====
section
/-! DEFINITION. Operand bounds of the listing syntax of node words (spec/30_encoding.md R71, R73, R78, R79), and the step from a well-formed listing line to an instruction. -/

namespace Sys2Proof

/-- A line of a listing, `INT l, r` or `LEAF s` with decimal operands (R79), before its operands are checked. -/
inductive Listing where
  | int (l r : Nat)
  | leaf (s : Nat)
deriving DecidableEq, Repr, Inhabited

/-- Operands are in range: `0 <= l, r <= 511`, `0 <= s <= 255` (R78). -/
def Listing.wellFormed : Listing → Bool
  | .int l r => decide (l < Config.nnodes) && decide (r < Config.nnodes)
  | .leaf s => decide (s < Config.nsym)

/-- The instruction a listing line spells; none where an operand is out of range. -/
def Listing.assemble (x : Listing) : Option Instr :=
  if x.wellFormed then
    match x with
    | .int l r => some (.int (BitVec.ofNat 9 l) (BitVec.ofNat 9 r))
    | .leaf s => some (.leaf (BitVec.ofNat 8 s))
  else none

/-- The listing line of an instruction, with decimal operands (R79). A disassembler prints it for every leaf word,
whatever its reserved bits (R76). -/
def Instr.listing : Instr → Listing
  | .int l r => .int l.toNat r.toNat
  | .leaf s => .leaf s.toNat

/-- An instruction is well-formed when its listing line is. Every `Instr` is: the field types carry the bounds, and
"every value 0 to 511 is legal" (R71), "every value is legal, including 0" (R73). -/
def Instr.wellFormed (i : Instr) : Bool := i.listing.wellFormed

end Sys2Proof
end

