-- ==== Sys2Proof/Certificates/Slice0/Obligations.lean ====
section
/-! DEFINITION. The statements for the provers. -/

open Sys2Proof Sys2Proof.Machine

/- Encoding. -/

/-- Words written out from R71 and R73 (vectors V1 to V9) and the erased word of R77 decode to the node words they
spell. -/
def Obligations.SpecWordsDecode : Prop :=
  decodeTableWord 24 0b0000000001000000110 = some (.int 1#9 6#9) ∧
  decodeTableWord 24 0b0111111111000000000 = some (.int 511#9 0#9) ∧
  decodeTableWord 24 0b0000000000111111111 = some (.int 0#9 511#9) ∧
  decodeTableWord 24 0b0111111111111111111 = some (.int 511#9 511#9) ∧
  decodeTableWord 24 0b0000000000000000000 = some (.int 0#9 0#9) ∧
  decodeTableWord 24 0b1000000000001000001 = some (.leaf 65#8) ∧
  decodeTableWord 24 0b1000000000000000000 = some (.leaf 0#8) ∧
  decodeTableWord 24 0b1111111111101000001 = some (.leaf 65#8)

/-- Every instruction is well-formed, decodes back from its word, and from its listing line. The round trip is the
spec's own derivation (R78: "`dec(encINT(l, r)) = INT(l, r)` and `dec(encLEAF(s)) = LEAF(s)`"). -/
def Obligations.DecodeOfEncodeIsIdentity : Prop :=
  ∀ i : Instr, i.wellFormed = true ∧ decode (encode i) = i ∧ i.listing.assemble = some i

/-- The other direction (R78): every `INT` word is re-encoded to itself, a leaf word exactly when its reserved bits are
zero. -/
def Obligations.EncodeOfDecodeKeepsCanonicalWords : Prop :=
  (∀ w : NodeWord, tag w = false → encode (decode w) = w) ∧
  (∀ w : NodeWord, tag w = true → (encode (decode w) = w ↔ reserved w = 0#10))

/-- R75: the map is complete and the opcode is the tag alone. -/
def Obligations.OpcodeMapIsComplete : Prop :=
  (∀ w : NodeWord, w &&& opcodeMask = 0x00000#19 ↔ decode w = .int (left w) (right w)) ∧
  (∀ w : NodeWord, w &&& opcodeMask = 0x40000#19 ↔ decode w = .leaf (sym w)) ∧
  (∀ w : NodeWord, w &&& opcodeMask = 0x00000#19 ∨ w &&& opcodeMask = 0x40000#19)

/-- R76: reserved bits are ignored, in decoding and in what a step does, written as zero by the host tool, and not
printed by a disassembler. -/
def Obligations.ReservedLeafBitsAreIgnored : Prop :=
  (∀ (x : BitVec 10) (b : Byte),
    decode (leafWord x b) = .leaf b ∧ (decode (leafWord x b)).listing = .leaf b.toNat) ∧
  (∀ w : NodeWord, tag w = true → decode w = .leaf (sym w) ∧ w = leafWord (reserved w) (sym w)) ∧
  (∀ (s : State) (x : BitVec 10) (b : Byte), s.rst = false → fetch s = leafWord x b → step s = exec (.leaf b) s) ∧
  (∀ b : Byte, reserved (encode (.leaf b)) = 0#10)

/-- Operand bounds of the listing syntax (R78, R79): a line assembles exactly when it is well-formed, to the one
instruction whose listing it is. -/
def Obligations.ListingAssemblesWithinBounds : Prop :=
  ∀ (x : Listing) (i : Instr), x.assemble = some i ↔ x.wellFormed = true ∧ i.listing = x

/- One step. -/

/-- R110, R131: with reset released, a step runs the decoded word under the cursor. -/
def Obligations.StepRunsWordUnderCursor : Prop :=
  ∀ s : State, s.rst = false → step s = exec (decode (NodeMem.read s.nodes s.cursor)) s

/-- R111, whatever word is under the cursor. -/
def Obligations.AtRootFinishesOnEmptyStream : Prop :=
  ∀ (i : Instr) (s : State), s.st = .atRoot → s.bits.length ≤ s.pos → exec i s = .next { s with st := .done }

/-- R112, whatever word is under the cursor. -/
def Obligations.AtRootStartsSymbol : Prop :=
  ∀ (i : Instr) (s : State), s.st = .atRoot → s.pos < s.bits.length →
    exec i s = .next { s with st := .descending, cursor := Config.root }

/-- R113 and the success path of R101: the completion of `INT` and its whole frame, for the instruction and for a step
over a word with `tag = 0`. -/
def Obligations.IntTakesBranch : Prop :=
  (∀ (l r : NodeIdx) (s : State) (b : Bit), s.st = .descending → s.bits[s.pos]? = some b →
    exec (.int l r) s = .next { s with pos := s.pos + 1, cursor := if b = false then l else r }) ∧
  (∀ (s : State) (b : Bit), s.rst = false → s.st = .descending → tag (fetch s) = false →
    s.bits[s.pos]? = some b →
    step s =
      .next { s with pos := s.pos + 1, cursor := if b = false then left (fetch s) else right (fetch s) })

/-- R114 and R152: the exception, taken; nothing else changes. For the instruction and for a step over a word with
`tag = 0`. -/
def Obligations.IntTruncatesOnEmptyStream : Prop :=
  (∀ (l r : NodeIdx) (s : State), s.st = .descending → s.bits.length ≤ s.pos →
    exec (.int l r) s = .next { s with st := .fault, err := .truncated }) ∧
  (∀ s : State, s.rst = false → s.st = .descending → tag (fetch s) = false → s.bits.length ≤ s.pos →
    step s = .next { s with st := .fault, err := .truncated })

/-- R115, whatever the stream: the completion of `LEAF`, step 1, for the instruction and for a step over a word with
`tag = 1`. -/
def Obligations.LeafIsRecognised : Prop :=
  (∀ (x : Byte) (s : State), s.st = .descending → exec (.leaf x) s = .next { s with st := .emit }) ∧
  (∀ s : State, s.rst = false → s.st = .descending → tag (fetch s) = true → step s = .next { s with st := .emit })

/-- R116: the completion of `LEAF`, step 2; and `sym(w)` of whatever word is under the cursor, the tag not tested. -/
def Obligations.EmitOutputsSymbolAndRestarts : Prop :=
  (∀ (x : Byte) (s : State), s.st = .emit →
    exec (.leaf x) s = .next { s with st := .atRoot, cursor := Config.root, out := s.out ++ [x] }) ∧
  (∀ (w : NodeWord) (s : State), s.st = .emit →
    exec (decode w) s = .next { s with st := .atRoot, cursor := Config.root, out := s.out ++ [sym w] }) ∧
  (∀ s : State, s.rst = false → s.st = .emit →
    step s = .next { s with st := .atRoot, cursor := Config.root, out := s.out ++ [sym (fetch s)] })

/-- R117: nothing changes in Done, on this step or any later one, until reset. -/
def Obligations.DoneIsAbsorbing : Prop :=
  (∀ (i : Instr) (s : State), s.st = .done → exec i s = .next s) ∧
  (∀ (k : Nat) (s : State), s.st = .done → s.rst = false → runSteps k s = .next s)

/-- R118: nothing changes in Fault until reset. -/
def Obligations.FaultIsAbsorbing : Prop :=
  (∀ (i : Instr) (s : State), s.st = .fault → exec i s = .next s) ∧
  (∀ (k : Nat) (s : State), s.st = .fault → s.rst = false → runSteps k s = .next s)

/-- R144, R156: only reset leaves Done or Fault. -/
def Obligations.OnlyResetLeavesTerminalStates : Prop :=
  ∀ s t : State, step s = .next t → (s.st = .done ∨ s.st = .fault) → t.st ≠ s.st → s.rst = true ∧ t.st = .atRoot

/-- R170 and R171: a reset edge wins over every transition, writes the three registers and touches nothing else;
further edges repeat it. -/
def Obligations.ResetEdgeWritesRegistersOnly : Prop :=
  ∀ (k : Nat) (s : State), s.rst = true →
    step s = .next { s with st := .atRoot, cursor := Config.root, err := .none } ∧
    runSteps (k + 1) s = .next { s with st := .atRoot, cursor := Config.root, err := .none }

/-- R30's register values and levels, and R120's initial configuration. Clauses about `rst`, node memory and the stream
of `State.reset` are the model's choice (logs 3 and 4) and are not stated here. -/
def Obligations.ResetAndLaunchValues : Prop :=
  State.reset.st.code = 0b000#3 ∧ State.reset.cursor = 0#9 ∧ State.reset.err.code = 0b00#2 ∧
  doneFlag State.reset.st = false ∧ faultFlag State.reset.st = false ∧
  (∀ (m : NodeMem) (bits : List Bit),
    (State.launch m bits).st = .atRoot ∧ (State.launch m bits).cursor = Config.root ∧
    (State.launch m bits).err = .none ∧ (State.launch m bits).pos = 0 ∧ (State.launch m bits).out = [] ∧
    (State.launch m bits).nodes = m ∧ (State.launch m bits).bits = bits ∧ (State.launch m bits).rst = false)

/-- R119 (the spec's own derivation): every configuration has exactly one successor, for every image and stream; so the
bit source's own failure (R47), which `bitRead` answers on an empty stream, is never provoked (R158). -/
def Obligations.EveryStateHasSuccessor : Prop :=
  (∀ s : State, ∃ t, step s = .next t) ∧
  (∀ (k : Nat) (s : State), ∃ t, runSteps k s = .next t) ∧
  (∀ s : State, s.bits.length ≤ s.pos → bitRead s = .fault .bitSourceEmpty)

/-- R47: the bit at `pos`, and `pos` one greater; the interface's failure on an empty source. -/
def Obligations.BitReadTakesNextBit : Prop :=
  (∀ (s : State) (h : s.pos < s.bits.length), bitRead s = .next (s.bits[s.pos], { s with pos := s.pos + 1 })) ∧
  (∀ s : State, s.bits.length ≤ s.pos → bitRead s = .fault .bitSourceEmpty)

/-- R46: `HasNext` is `pos < |bits|`, and once 0 it is 0 for the rest of the run. -/
def Obligations.EmptySourceStaysEmpty : Prop :=
  (∀ s : State, hasNext s = true ↔ s.pos < s.bits.length) ∧
  (∀ (k : Nat) (s t : State), hasNext s = false → runSteps k s = .next t → hasNext t = false)

/- Whole-machine frames. -/

/-- What any node word leaves unchanged when it runs (R53, R20): reset input, stream, every node word; at most one bit
read and at most one byte emitted, never both; `err` kept but for the truncation. -/
def Obligations.ExecFrame : Prop :=
  ∀ (i : Instr) (s t : State), exec i s = .next t →
    t.rst = s.rst ∧ t.bits = s.bits ∧ t.nodes = s.nodes ∧
    (∀ a : Nat, NodeMem.readAt a t.nodes = NodeMem.readAt a s.nodes) ∧
    ((t.pos = s.pos ∧ t.out = s.out) ∨
      (s.st = .descending ∧ s.pos < s.bits.length ∧ t.pos = s.pos + 1 ∧ t.out = s.out) ∨
      (s.st = .emit ∧ t.pos = s.pos ∧ ∃ b : Byte, t.out = s.out ++ [b])) ∧
    (t.err = s.err ∨ (s.st = .descending ∧ t.st = .fault ∧ t.err = .truncated))

/-- R22: the cursor is advanced only to `ROOT` at the start of a symbol, after an emission and by reset, and to the
child a consumed bit selects at an internal node. -/
def Obligations.CursorMovesOnlyThreeWays : Prop :=
  ∀ s t : State, step s = .next t →
    t.cursor = s.cursor ∨
    (t.cursor = Config.root ∧
      (s.rst = true ∨ (s.st = .atRoot ∧ s.pos < s.bits.length ∧ t.st = .descending) ∨
        (s.st = .emit ∧ t.st = .atRoot))) ∨
    (s.rst = false ∧ s.st = .descending ∧ tag (NodeMem.read s.nodes s.cursor) = false ∧ t.pos = s.pos + 1 ∧
      ∃ b, s.bits[s.pos]? = some b ∧
        t.cursor =
          if b = false then left (NodeMem.read s.nodes s.cursor) else right (NodeMem.read s.nodes s.cursor))

/-- R23: `err` is written only by the truncation and by reset, and once set only reset clears it. -/
def Obligations.ErrWrittenByTruncationAndResetOnly : Prop :=
  ∀ s t : State, step s = .next t →
    (t.err ≠ s.err →
      (s.rst = true ∧ t.err = .none) ∨
      (s.rst = false ∧ s.st = .descending ∧ tag (NodeMem.read s.nodes s.cursor) = false ∧
        s.bits.length ≤ s.pos ∧ t.st = .fault ∧ t.err = .truncated)) ∧
    (s.err = .truncated → t.err ≠ .truncated → s.rst = true)

/-- R29 item 6: `out` only grows and `pos` only grows. -/
def Obligations.StreamsOnlyGrow : Prop :=
  ∀ (k : Nat) (s t : State), runSteps k s = .next t → s.pos ≤ t.pos ∧ s.out <+: t.out

/- Invariants. -/

/-- The invariant holds at the start of every run over a canonical node memory, and at `State.reset`. -/
def Obligations.InvariantHoldsAtLaunch : Prop :=
  Inv State.reset ∧ ∀ (m : NodeMem) (bits : List Bit), NodeMem.wf m = true → Inv (State.launch m bits)

/-- R29 (the spec's own derivation): every step keeps the invariant, from every state that has it. -/
def Obligations.EveryStepKeepsInvariant : Prop :=
  ∀ s t : State, Inv s → step s = .next t → Inv t

/-- R121, R29 item 4 (the spec's own derivations): a symbol started at an internal root reads its first bit in the next
step; and a run that is in Fault has consumed at least one bit since its last symbol boundary. -/
def Obligations.TruncationIsMidSymbol : Prop :=
  (∀ s : State, s.rst = false → s.st = .atRoot → s.pos < s.bits.length →
    tag (NodeMem.read s.nodes Config.root) = false →
    ∃ t, runSteps 2 s = .next t ∧ t.st = .descending ∧ t.pos = s.pos + 1) ∧
  (∀ (m : NodeMem) (bits : List Bit) (k : Nat) (t : State),
    runSteps k (State.launch m bits) = .next t → t.st = .fault →
    ∃ (j : Nat) (u : State), j < k ∧ runSteps j (State.launch m bits) = .next u ∧ u.st = .atRoot ∧
      u.pos < t.pos ∧ u.out = t.out ∧
      ∀ (n : Nat) (v : State), j < n → n ≤ k → runSteps n (State.launch m bits) = .next v → v.st ≠ .atRoot)

/- Runs. -/

/-- R122 (the spec's own derivation): with an `INT` word at `ROOT` every run ends within `4·|bits| + 1` steps; with a
leaf there, at once on an empty stream and never on another. -/
def Obligations.RunsTerminateWithinBound : Prop :=
  (∀ (m : NodeMem) (bits : List Bit), tag (NodeMem.read m Config.root) = false →
    ∃ (k : Nat) (t : State), k ≤ 4 * bits.length + 1 ∧ runSteps k (State.launch m bits) = .next t ∧ ended t = true) ∧
  (∀ m : NodeMem, tag (NodeMem.read m Config.root) = true →
    runSteps 1 (State.launch m []) = .next { State.launch m [] with st := .done }) ∧
  (∀ (m : NodeMem) (bits : List Bit) (k : Nat) (t : State), tag (NodeMem.read m Config.root) = true → bits ≠ [] →
    runSteps k (State.launch m bits) = .next t → ended t = false)

/-- R123: the single-leaf quirk, kept as an infinite run. -/
def Obligations.SingleLeafRunNeverEnds : Prop :=
  ∀ (m : NodeMem) (bits : List Bit), tag (NodeMem.read m Config.root) = true → bits ≠ [] →
    (∀ k : Nat, runSteps (3 * k) (State.launch m bits) =
      .next { State.launch m bits with out := List.replicate k (sym (NodeMem.read m Config.root)) }) ∧
    (∀ (n : Nat) (t : State), runSteps n (State.launch m bits) = .next t →
      t.pos = 0 ∧ hasNext t = true ∧ t.st ≠ .done ∧ t.st ≠ .fault ∧
      t.out.length = n / 3)

/-- R124 (the spec's own derivation): a symbol whose leaf is at depth L takes L + 3 steps, from any symbol boundary with
a bit left and its code word next. -/
def Obligations.SymbolTakesDepthPlusThreeSteps : Prop :=
  ∀ (s : State) (p : List Bit) (i : NodeIdx), s.rst = false → s.st = .atRoot → s.pos < s.bits.length →
    reach s.nodes Config.root p = some i → tag (NodeMem.read s.nodes i) = true → p <+: s.bits.drop s.pos →
    runSteps (p.length + 3) s =
      .next { s with cursor := Config.root, pos := s.pos + p.length, out := s.out ++ [sym (NodeMem.read s.nodes i)] }

/-- R125, first half (the spec's own derivation), with the step count of R124: a concatenation of code words decodes to
its symbols and ends in Done. -/
def Obligations.CodeWordsDecodeToTheirSymbols : Prop :=
  ∀ m : NodeMem, WellFormedImage m → tag (NodeMem.read m Config.root) = false →
    ∃ t : CodeTree, Denotes m Config.root t ∧
      ∀ xs : List CodeWord, (∀ c ∈ xs, c ∈ t.leaves) →
        runSteps ((xs.flatMap Prod.fst).length + 3 * xs.length + 1) (State.launch m (xs.flatMap Prod.fst)) =
          .next { State.launch m (xs.flatMap Prod.fst) with
            st := .done, pos := (xs.flatMap Prod.fst).length, out := xs.map Prod.snd }

/-- R125, second half (the spec's own derivation), with the step count of R186: followed by a non-empty proper prefix of
a code word, the run ends in Fault at the internal node that prefix leads to, the bytes before it kept. -/
def Obligations.TruncatedStreamEndsInFault : Prop :=
  ∀ m : NodeMem, WellFormedImage m → tag (NodeMem.read m Config.root) = false →
    ∃ t : CodeTree, Denotes m Config.root t ∧
      ∀ (xs : List CodeWord) (c : CodeWord) (p : List Bit), (∀ x ∈ xs, x ∈ t.leaves) → c ∈ t.leaves →
        p <+: c.1 → p ≠ c.1 → p ≠ [] →
        ∃ i : NodeIdx, reach m Config.root p = some i ∧ tag (NodeMem.read m i) = false ∧
          runSteps ((xs.flatMap Prod.fst ++ p).length + 3 * xs.length + 2)
              (State.launch m (xs.flatMap Prod.fst ++ p)) =
            .next { State.launch m (xs.flatMap Prod.fst ++ p) with
              st := .fault, err := .truncated, cursor := i, pos := (xs.flatMap Prod.fst ++ p).length,
              out := xs.map Prod.snd }

/-- R125 (the spec's own derivation): for a tree with an internal root every bit string is, in exactly one way, a
concatenation of code words followed by a proper prefix of one, the prefix empty in the first form. -/
def Obligations.EveryStreamDecomposesUniquely : Prop :=
  ∀ (l r : CodeTree) (bits : List Bit),
    ∃! d : List CodeWord × List Bit,
      (∀ c ∈ d.1, c ∈ (CodeTree.node l r).leaves) ∧ bits = d.1.flatMap Prod.fst ++ d.2 ∧
      ∃ c ∈ (CodeTree.node l r).leaves, d.2 <+: c.1 ∧ d.2 ≠ c.1

/-- R56 (the spec's own derivation): at the step that emits byte k, `pos` is the total length of code words 0 to k. -/
def Obligations.ByteFollowsItsCodeWord : Prop :=
  ∀ (m : NodeMem) (t : CodeTree) (xs : List CodeWord), Denotes m Config.root t → tag (NodeMem.read m Config.root) = false →
    (∀ c ∈ xs, c ∈ t.leaves) →
    ∀ (n : Nat) (s : State), runSteps n (State.launch m (xs.flatMap Prod.fst)) = .next s → s.st = .emit →
      s.out.length < xs.length ∧ s.pos = ((xs.take (s.out.length + 1)).flatMap Prod.fst).length ∧
      s.out = (xs.take s.out.length).map Prod.snd

/-- R120: a run ends with a result exactly when the document's loop returns it. -/
def Obligations.RunRefinesDocumentLoop : Prop :=
  ∀ (m : NodeMem) (bits : List Bit) (r : RunEnd),
    (∃ n : Nat, decodeLoop m n bits [] = some r) ↔
      ∃ (k : Nat) (t : State), runSteps k (State.launch m bits) = .next t ∧ result t = some r

/-- R126 (the spec's own derivation): the bit reads, emissions and final stop of a run are those of the document's loop,
for every image and stream, runs that never end included. -/
def Obligations.RunEventsAreLoopEvents : Prop :=
  ∀ (m : NodeMem) (bits : List Bit),
    (∀ n : Nat, ∃ k : Nat, runEvents k (State.launch m bits) = loopEvents m n bits) ∧
    (∀ k : Nat, ∃ n : Nat, runEvents k (State.launch m bits) <+: loopEvents m n bits)

/-- R125, R87: the run's registers (the cursor apart) and streams depend only on the denoted tree, not on how its nodes
are numbered. -/
def Obligations.OutputDependsOnDenotedTreeOnly : Prop :=
  ∀ (m n : NodeMem) (t : CodeTree), Denotes m Config.root t → Denotes n Config.root t →
    ∀ (bits : List Bit) (k : Nat), ∃ u v : State,
      runSteps k (State.launch m bits) = .next u ∧ runSteps k (State.launch n bits) = .next v ∧
      u.st = v.st ∧ u.err = v.err ∧ u.pos = v.pos ∧ u.out = v.out

/-- R44: words not reachable from `ROOT` are never read: two memories that agree on the reachable words give the same
run. -/
def Obligations.UnreachableWordsAreNeverRead : Prop :=
  ∀ m n : NodeMem,
    (∀ (p : List Bit) (i : NodeIdx), reach m Config.root p = some i → NodeMem.read m i = NodeMem.read n i) →
    ∀ (bits : List Bit) (k : Nat), ∃ u : State,
      runSteps k (State.launch m bits) = .next u ∧ runSteps k (State.launch n bits) = .next { u with nodes := n }

/- Trees and images. -/

/-- R44 (the spec's own derivation): a well-formed image denotes exactly one finite tree, which `denotedTree` computes.
Only this direction of R44's "exactly when" is stated: the other fails on an image that shares a node without a cycle
(log 20). -/
def Obligations.WellFormedImageDenotesOneTree : Prop :=
  ∀ m : NodeMem, WellFormedImage m →
    ∃ t : CodeTree, denotedTree m = some t ∧ ∀ t' : CodeTree, Denotes m Config.root t' ↔ t' = t

/-- The computed check decides R44 (a). -/
def Obligations.ImageCheckDecidesWellFormed : Prop :=
  ∀ m : NodeMem, wellFormedImage m = true ↔ WellFormedImage m

/-- R45 (the spec's own derivation): no leaf's path is a prefix of another's. -/
def Obligations.LeafPathsArePrefixFree : Prop :=
  ∀ t : CodeTree, t.leaves.Pairwise fun a b => ¬ a.1 <+: b.1 ∧ ¬ b.1 <+: a.1

/- Pins. -/

/-- R143 (the spec's own derivation), for every state, reset cycles included: block and environment at the pins make
the step. -/
def Obligations.PinCycleIsStep : Prop :=
  ∀ s : State, step s = .next (cycle s)

/-- R136 and R137: when the strobes are 1, what is read and emitted then, and that two bytes are at least three cycles
apart (the spec's own derivation). That `out_byte` is `sym(nm_rdata)` also in cycles with `out_valid = 0` is the model's
choice (log 12): R137 only "lets it carry `nm_rdata[7:0]` always", and U14 leaves it any value. -/
def Obligations.StrobesAreExact : Prop :=
  (∀ s : State, (pinsOf s).bsRead = true ↔
    s.rst = false ∧ s.st = .descending ∧ tag (NodeMem.read s.nodes s.cursor) = false ∧ s.pos < s.bits.length) ∧
  (∀ s : State, (pinsOf s).outValid = true ↔ s.rst = false ∧ s.st = .emit) ∧
  (∀ s : State, (pinsOf s).outByte = sym (NodeMem.read s.nodes s.cursor)) ∧
  (∀ s t : State, step s = .next t →
    ((pinsOf s).bsRead = true ↔ t.pos = s.pos + 1) ∧ ((pinsOf s).outValid = true ↔ t.out ≠ s.out) ∧
    ((pinsOf s).outValid = true → t.out = s.out ++ [(pinsOf s).outByte])) ∧
  (∀ s t u : State, (pinsOf s).outValid = true → step s = .next t → step t = .next u →
    (pinsOf t).outValid = false ∧ (pinsOf u).outValid = false)

/-- R132: while `rst = 1` neither strobe is 1, and the cycle neither consumes a bit nor emits a byte. -/
def Obligations.NoStrobeUnderReset : Prop :=
  ∀ s t : State, s.rst = true → step s = .next t →
    (pinsOf s).bsRead = false ∧ (pinsOf s).outValid = false ∧ t.pos = s.pos ∧ t.out = s.out

/-- R133, R138: `nm_addr` is the cursor; `done`, `fault` and `err` are levels of the registers, at most one of the first
two is 1, either stays until reset, and in a state with the invariant `fault = 1` exactly when `err = 0b01`. -/
def Obligations.StatusPinsAreLevels : Prop :=
  (∀ s : State, (pinsOf s).nmAddr = s.cursor ∧ ((pinsOf s).done = true ↔ s.st = .done) ∧
    ((pinsOf s).fault = true ↔ s.st = .fault) ∧ (pinsOf s).err = s.err.code ∧
    ((pinsOf s).done && (pinsOf s).fault) = false) ∧
  (∀ s t : State, s.rst = false → step s = .next t →
    ((pinsOf s).done = true → (pinsOf t).done = true) ∧ ((pinsOf s).fault = true → (pinsOf t).fault = true)) ∧
  (∀ s : State, Inv s → ((pinsOf s).fault = true ↔ (pinsOf s).err = 0b01#2))

/- Host. -/

/-- The host's moves against R43, R135 and R173. The refusals outside reset, after the run has ended too, where R174 alone
would not forbid moving the source, are the model's choice (log 10). Reading "under reset" as the bare level of `rst`,
sampled by an edge or not, is the model's choice (log 24, unsafe). At that level a node write is read back and leaves every
other word, and the source and sink are prepared. -/
def Obligations.HostMovesOnlyUnderReset : Prop :=
  (∀ (s : State) (i : NodeIdx) (w : NodeWord) (bits : List Bit), s.rst = false →
    hostWriteNode i w s = .refused .nodeWriteDuringRun ∧
    hostPresentSource bits s = .refused .sourceMovedDuringRun ∧
    hostPrepareSink s = .refused .sinkPreparedDuringRun) ∧
  (∀ (s : State) (i : NodeIdx) (w : NodeWord), s.rst = true → NodeMem.wf s.nodes = true →
    ∃ m : NodeMem, hostWriteNode i w s = .next { s with nodes := m } ∧ NodeMem.wf m = true ∧
      ∀ j : NodeIdx, NodeMem.read m j = if j = i then w else NodeMem.read s.nodes j) ∧
  (∀ (s : State) (bits : List Bit), s.rst = true →
    hostPresentSource bits s = .next { s with bits := bits, pos := 0 } ∧
    hostPrepareSink s = .next { s with out := [] })

/-- R173, R175, R120: from any state, running or ended, the boot sequence leads to the initial configuration of a run
over the written image and the presented stream. -/
def Obligations.BootReachesInitialConfiguration : Prop :=
  ∀ (s : State) (image : List NodeWord) (bits : List Bit),
    boot image bits s = .next (State.launch (NodeMem.writeImage 0 image s.nodes) bits)

/-- R59, R164: a step of one block leaves every other block alone, keeps the shared tree, and the edge of all blocks is
each block's own step. -/
def Obligations.InstancesDoNotInteract : Prop :=
  (∀ (cl : Cluster) (k : Nat) (s : State), cl[k]? = some s →
    ∃ t, step s = .next t ∧ stepOne k cl = .next (cl.set k t) ∧
      (∀ j, j ≠ k → (cl.set k t)[j]? = cl[j]?) ∧
      (∀ m : NodeMem, sharesTree m cl = true → sharesTree m (cl.set k t) = true)) ∧
  (∀ cl : Cluster, ∃ d : Cluster, stepAll cl = .next d ∧ List.Forall₂ (fun s t => step s = .next t) cl d ∧
    ∀ m : NodeMem, sharesTree m cl = true → sharesTree m d = true)

/- Host tools. -/

/-- R85: an odd line at the end, a symbol line that is no integer or is outside 0 to 255, and a path line with another
character are each `MalformedTable`. Which lines spell an integer (`spelledInt`: digits, with spaces around, a sign or
leading zeros) is the model's choice (log 15): the spec leaves the spellings open (N16). -/
def Obligations.MalformedTablesAreRejected : Prop :=
  (∀ (ns : List LoadNode) (x : Line), loadLines ns [x] = .error .malformedTable) ∧
  (∀ (ns : List LoadNode) (x y : Line) (rest : List Line), spelledInt x = none →
    loadLines ns (x :: y :: rest) = .error .malformedTable) ∧
  (∀ (ns : List LoadNode) (x y : Line) (rest : List Line) (v : Int), spelledInt x = some v → v < 0 ∨ 255 < v →
    loadLines ns (x :: y :: rest) = .error .malformedTable) ∧
  (∀ (ns : List LoadNode) (x y : Line) (rest : List Line) (ch : Char), ch ∈ y → ch ≠ '0' → ch ≠ '1' →
    loadLines ns (x :: y :: rest) = .error .malformedTable)

/-- R86: a table of well-formed lines loads exactly when its paths are prefix-free and collide nowhere, and is
`AmbiguousCode` otherwise, in whatever order its pairs stand. That the order does not matter is the spec's own
derivation ("`[derived: from rule R84]`"). The form of the symbol lines (`codeWordLines`) is the model's choice (log 25). -/
def Obligations.AmbiguousTablesAreExactlyThePrefixClashes : Prop :=
  (∀ cs : List CodeWord,
    (load (cs.flatMap codeWordLines) = .error .ambiguousCode ↔
      ¬ cs.Pairwise fun a b => ¬ a.1 <+: b.1 ∧ ¬ b.1 <+: a.1) ∧
    ((cs.Pairwise fun a b => ¬ a.1 <+: b.1 ∧ ¬ b.1 <+: a.1) → ∃ ns, load (cs.flatMap codeWordLines) = .ok ns)) ∧
  (∀ cs ds : List CodeWord, cs.Perm ds →
    (load (cs.flatMap codeWordLines) = .error .ambiguousCode ↔
      load (ds.flatMap codeWordLines) = .error .ambiguousCode))

/-- R89: a loaded tree with an absent child is refused; the spec's two examples. Which error wins for a tree that is also
too large is the model's choice (log 16) and is not stated. -/
def Obligations.IncompleteTreesAreRefused : Prop :=
  (∀ ns : List LoadNode, ns.length ≤ Config.nnodes → (∃ n ∈ ns, loadNodeWord n = none) →
    imageOf ns = .error .incompleteCode) ∧
  (∀ (l r : Option Nat), loadNodeWord (.int l r) = none ↔ l = none ∨ r = none) ∧
  assembleTable [['6', '5'], ['0']] = .error .incompleteCode ∧
  assembleTable [] = .error .incompleteCode

/-- R87, R90 (the spec's own derivation): the table `save` writes loads to the pre-order image of the tree. The form of the
symbol lines written is the model's choice (log 25). -/
def Obligations.SavedTableLoadsToPreorderImage : Prop :=
  ∀ t : CodeTree, t.size ≤ Config.nnodes → assembleTable (save t) = .ok (preorderImage 0 t)

/-- R87, R44: the pre-order image, written to any node memory, is well-formed and denotes the tree. -/
def Obligations.PreorderImageDenotesTree : Prop :=
  ∀ (m : NodeMem) (t : CodeTree), NodeMem.wf m = true → t.size ≤ Config.nnodes →
    WellFormedImage (NodeMem.writeImage 0 (preorderImage 0 t) m) ∧
    Denotes (NodeMem.writeImage 0 (preorderImage 0 t) m) Config.root t

/-- R91, R92: whatever the tie-break, `build` fails with `EmptyAlphabet` when no frequency is positive, returns the one
leaf when exactly one is, and otherwise a tree with one leaf per symbol of positive frequency. -/
def Obligations.BuiltTreeHasOneLeafPerPositiveSymbol : Prop :=
  ∀ (tie : TieBreak) (freq : Byte → Nat),
    ((∀ b, freq b = 0) → build tie freq = .error .emptyAlphabet) ∧
    (∀ b, 0 < freq b → (∀ c, c ≠ b → freq c = 0) → build tie freq = .ok (.leaf b)) ∧
    (∀ b, 0 < freq b → ∃ t, build tie freq = .ok t ∧ (t.leaves.map Prod.snd).Nodup ∧
      ∀ c, c ∈ t.leaves.map Prod.snd ↔ 0 < freq c)

/-- R6: a tree with L leaves has 2L - 1 nodes, and a built tree at most 511. -/
def Obligations.BuiltTreeFitsNodeMemory : Prop :=
  (∀ t : CodeTree, t.size + 1 = 2 * t.leaves.length) ∧
  (∀ (tie : TieBreak) (freq : Byte → Nat) (t : CodeTree), build tie freq = .ok t → t.size ≤ 511)

/-- R93 (the spec's own derivation): the saved and reloaded table of a built tree gives an image that denotes the tree,
so that it decodes as the tree does. The form of the symbol lines written is the model's choice (log 25). -/
def Obligations.BuildSaveLoadRoundTrip : Prop :=
  ∀ (tie : TieBreak) (freq : Byte → Nat) (t : CodeTree) (m : NodeMem), build tie freq = .ok t → NodeMem.wf m = true →
    ∃ ws, assembleTable (save t) = .ok ws ∧ Denotes (NodeMem.writeImage 0 ws m) Config.root t
end

