-- ==== Sys2Proof/Laws/Codec.lean ====
section
/-! SUPPORT. The lines `save` writes are read back as the code word they stand for. -/

namespace Sys2Proof.Machine

/-- The decimal line of a symbol is plain and spells its value, for each of the 256 symbols. -/
theorem symbolLine_plain : ∀ s : Byte,
    isPlainDecimal (symbolLine s) = true ∧ spelledInt (symbolLine s) = some (s.toNat : Int) := by
  decide

theorem parseSymbol_symbolLine (s : Byte) : parseSymbol (symbolLine s) = .ok s := by
  have h := s.isLt
  unfold parseSymbol
  rw [(symbolLine_plain s).2]
  simp only [(symbolLine_plain s).1, Bool.true_or, if_true]
  rw [if_pos ⟨by omega, by omega⟩]
  simp

theorem parsePath_pathLine (p : List Bit) : parsePath (pathLine p) = .ok p := by
  induction p with
  | nil => rfl
  | cons b p ih =>
    show parsePath ((if b then '1' else '0') :: pathLine p) = _
    cases b <;> simp [parsePath, ih]

theorem parsePair_codeWord (c : CodeWord) : parsePair (symbolLine c.2) (pathLine c.1) = .ok c := by
  unfold parsePair
  rw [parseSymbol_symbolLine, parsePath_pathLine]

end Sys2Proof.Machine
end

