-- ==== Sys2Proof/Laws/Config.lean ====
section
/-! SUPPORT. The relations between the parameters that spec/00_scope.md R5 states. -/

namespace Sys2Proof.Config

theorem nnodes_eq : nnodes = 2 ^ aw := rfl
theorem nsym_eq : nsym = 2 ^ symw := rfl
theorem nw_eq : nw = 1 + 2 * aw := rfl

/-- Every node index is in range (R41). -/
theorem toNat_lt_nnodes (i : NodeIdx) : i.toNat < nnodes := i.isLt

end Sys2Proof.Config
end

