-- ==== Sys2Proof/Laws/Decode.lean ====
section
/-! SUPPORT. The fields of an encoded word, and a word put together from its fields. -/

namespace Sys2Proof

/-- The tag bit of a leaf word is bit 18 alone. -/
theorem getElem_leafTag (j : Nat) (hj : j < 19) : (0x40000#19)[j] = decide (j = 18) := by
  have h : (0x40000#19) = BitVec.twoPow 19 18 := by decide
  rw [← BitVec.getLsbD_eq_getElem hj, h, BitVec.getLsbD_twoPow]
  by_cases hj : j = 18 <;> simp [hj, eq_comm]

/-- `INT l, r` is numerically `l · 512 + r` (R71). -/
theorem toNat_encINT (l r : NodeIdx) : (encINT l r).toNat = l.toNat * 512 + r.toNat := by
  have hl := l.isLt
  have hr := r.isLt
  have h := Nat.shiftLeft_add_eq_or_of_lt (i := 9) (b := r.toNat) hr l.toNat
  simp only [encINT, BitVec.toNat_or, BitVec.toNat_shiftLeft, BitVec.toNat_setWidth]
  rw [Nat.mod_eq_of_lt (by omega : l.toNat < 2 ^ 19), Nat.mod_eq_of_lt (by omega : r.toNat < 2 ^ 19),
    Nat.mod_eq_of_lt (by rw [Nat.shiftLeft_eq]; omega), ← h, Nat.shiftLeft_eq]

theorem tag_encINT (l r : NodeIdx) : tag (encINT l r) = false := by
  simp [tag, encINT]

theorem left_encINT (l r : NodeIdx) : left (encINT l r) = l := by
  ext i hi
  have h : 9 + i < 19 := by omega
  simp [left, encINT, h, BitVec.getLsbD_of_ge, BitVec.getLsbD_eq_getElem hi]

theorem right_encINT (l r : NodeIdx) : right (encINT l r) = r := by
  ext i hi
  have h : i < 19 := by omega
  simp [right, encINT, hi, h]

theorem leafWord_zero (s : Byte) : leafWord 0#10 s = encLEAF s := by
  simp [leafWord, encLEAF]

theorem tag_leafWord (x : BitVec 10) (s : Byte) : tag (leafWord x s) = true := by
  simp [tag, leafWord]

theorem sym_leafWord (x : BitVec 10) (s : Byte) : sym (leafWord x s) = s := by
  ext i hi
  have h : i < 19 := by omega
  have h18 : i ≠ 18 := by omega
  simp [sym, leafWord, hi, h, h18, getElem_leafTag]

theorem reserved_leafWord (x : BitVec 10) (s : Byte) : reserved (leafWord x s) = x := by
  ext i hi
  have h8 : 8 + i < 19 := by omega
  have h18 : 8 + i ≠ 18 := by omega
  simp [reserved, leafWord, hi, h8, h18, getElem_leafTag]

theorem tag_encLEAF (s : Byte) : tag (encLEAF s) = true := by
  rw [← leafWord_zero, tag_leafWord]

theorem sym_encLEAF (s : Byte) : sym (encLEAF s) = s := by
  rw [← leafWord_zero, sym_leafWord]

theorem reserved_encLEAF (s : Byte) : reserved (encLEAF s) = 0#10 := by
  rw [← leafWord_zero, reserved_leafWord]

/-- The symbol field of an `INT` word is the low part of its `right` field (R72). -/
theorem sym_eq_symOfInt (w : NodeWord) : sym w = Machine.symOfInt (left w) (right w) := by
  ext i hi
  simp [sym, Machine.symOfInt, right]

end Sys2Proof
end

