-- ==== Sys2Proof/Laws/Memory.lean ====
section
/-! SUPPORT. Node memory: a write is read back, leaves every other index alone, and keeps the canonical form. -/

namespace Sys2Proof.Machine.NodeMem

theorem wfFrom_mono {lo hi : Nat} (h : lo ≤ hi) {m : NodeMem} (hm : wfFrom hi m = true) : wfFrom lo m = true := by
  cases m with
  | nil => rfl
  | cons c m =>
    simp only [wfFrom, Bool.and_eq_true, decide_eq_true_eq] at hm ⊢
    exact ⟨⟨⟨by omega, hm.1.1.2⟩, hm.1.2⟩, hm.2⟩

/-- Below the first listed index everything reads as unlisted. -/
theorem readAt_of_wfFrom {lo a : Nat} {m : NodeMem} (hm : wfFrom lo m = true) (ha : a < lo) :
    readAt a m = unlisted := by
  induction m generalizing lo with
  | nil => rfl
  | cons c m ih =>
    simp only [wfFrom, Bool.and_eq_true, decide_eq_true_eq] at hm
    have hne : c.1 ≠ a := by omega
    rw [readAt, if_neg hne]
    exact ih hm.2 (by omega)

theorem wfFrom_consCell {lo a : Nat} {w : NodeWord} {m : NodeMem} (hlo : lo ≤ a) (ha : a < Config.nnodes)
    (hm : wfFrom (a + 1) m = true) : wfFrom lo (consCell a w m) = true := by
  unfold consCell
  split
  · exact wfFrom_mono (by omega) hm
  · next hw => simp [wfFrom, hlo, ha, hw, hm]

theorem readAt_consCell {a b : Nat} {w : NodeWord} {m : NodeMem} (hm : wfFrom (a + 1) m = true) :
    readAt b (consCell a w m) = if b = a then w else readAt b m := by
  unfold consCell
  split
  · next hw =>
    split
    · next hb => rw [hw, readAt_of_wfFrom hm (by omega)]
    · rfl
  · simp only [readAt]
    by_cases hb : b = a
    · simp [hb]
    · rw [if_neg (Ne.symm hb), if_neg hb]

theorem wfFrom_writeAt {lo a : Nat} {w : NodeWord} {m : NodeMem} (hlo : lo ≤ a) (ha : a < Config.nnodes)
    (hm : wfFrom lo m = true) : wfFrom lo (writeAt a w m) = true := by
  induction m generalizing lo with
  | nil => exact wfFrom_consCell hlo ha rfl
  | cons c m ih =>
    have hm' := hm
    simp only [wfFrom, Bool.and_eq_true, decide_eq_true_eq] at hm'
    obtain ⟨⟨⟨h1, h2⟩, h3⟩, h4⟩ := hm'
    rw [writeAt]
    split
    · refine wfFrom_consCell hlo ha ?_
      simp only [wfFrom, Bool.and_eq_true, decide_eq_true_eq]
      exact ⟨⟨⟨by omega, h2⟩, h3⟩, h4⟩
    · split
      · next hac => exact wfFrom_consCell hlo ha (hac ▸ h4)
      · simp only [wfFrom, Bool.and_eq_true, decide_eq_true_eq]
        exact ⟨⟨⟨h1, h2⟩, h3⟩, ih (by omega) h4⟩

/-- Every write keeps the canonical form. -/
theorem wf_writeAt {a : Nat} {w : NodeWord} {m : NodeMem} (ha : a < Config.nnodes) (hm : wf m = true) :
    wf (writeAt a w m) = true :=
  wfFrom_writeAt (Nat.zero_le a) ha hm

theorem wf_write (m : NodeMem) (i : NodeIdx) (w : NodeWord) (hm : wf m = true) : wf (write m i w) = true :=
  wf_writeAt (i.isLt) hm

theorem readAt_writeAt_of_wfFrom {lo a b : Nat} {w : NodeWord} {m : NodeMem} (hm : wfFrom lo m = true) :
    readAt b (writeAt a w m) = if b = a then w else readAt b m := by
  induction m generalizing lo with
  | nil => exact readAt_consCell rfl
  | cons c m ih =>
    simp only [wfFrom, Bool.and_eq_true, decide_eq_true_eq] at hm
    obtain ⟨⟨⟨h1, h2⟩, h3⟩, h4⟩ := hm
    rw [writeAt]
    split
    · refine readAt_consCell ?_
      simp only [wfFrom, Bool.and_eq_true, decide_eq_true_eq]
      exact ⟨⟨⟨by omega, h2⟩, h3⟩, h4⟩
    · split
      · next hac =>
        rw [readAt_consCell (hac ▸ h4)]
        by_cases hb : b = a
        · rw [if_pos hb, if_pos hb]
        · rw [if_neg hb, if_neg hb, readAt, if_neg (by omega)]
      · next hac =>
        simp only [readAt]
        rw [ih h4]
        by_cases hb : c.1 = b
        · rw [if_pos hb, if_neg (by omega), if_pos hb]
        · rw [if_neg hb, if_neg hb]

/-- Reading after a write: the written word at its index, the old word everywhere else. -/
theorem readAt_writeAt {a b : Nat} {w : NodeWord} {m : NodeMem} (hm : wf m = true) :
    readAt b (writeAt a w m) = if b = a then w else readAt b m :=
  readAt_writeAt_of_wfFrom hm

theorem read_write (m : NodeMem) (i j : NodeIdx) (w : NodeWord) (hm : wf m = true) :
    read (write m i w) j = if j = i then w else read m j := by
  unfold read write
  rw [readAt_writeAt hm]
  simp only [BitVec.toNat_inj]

theorem wf_writeImage (a : Nat) (ws : List NodeWord) (m : NodeMem) (hm : wf m = true) :
    wf (writeImage a ws m) = true := by
  induction ws generalizing a m with
  | nil => exact hm
  | cons w ws ih =>
    rw [writeImage]
    split
    · next ha => exact ih _ _ (wf_writeAt ha hm)
    · exact ih _ _ hm

/-- A written image is read back word by word; every other word is as it was (R87). -/
theorem readAt_writeImage (a b : Nat) (ws : List NodeWord) (m : NodeMem) (hm : wf m = true)
    (hlen : a + ws.length ≤ Config.nnodes) :
    readAt b (writeImage a ws m) = if a ≤ b then (ws[b - a]?).getD (readAt b m) else readAt b m := by
  induction ws generalizing a m with
  | nil => simp [writeImage]
  | cons w ws ih =>
    rw [List.length_cons] at hlen
    have ha : a < Config.nnodes := by omega
    rw [writeImage, if_pos ha, ih _ _ (wf_writeAt ha hm) (by omega), readAt_writeAt hm]
    rcases Nat.lt_trichotomy b a with h | h | h
    · rw [if_neg (by omega : ¬ a + 1 ≤ b), if_neg (by omega : ¬ b = a), if_neg (by omega : ¬ a ≤ b)]
    · subst h
      simp
    · have hsub : b - a = (b - (a + 1)) + 1 := by omega
      rw [if_pos (by omega : a + 1 ≤ b), if_pos (by omega : a ≤ b), if_neg (by omega : ¬ b = a), hsub,
        List.getElem?_cons_succ]

/-- The canonical form is canonical: equal reads make equal memories. -/
theorem eq_of_readAt_eq {lo : Nat} {m n : NodeMem} (hm : wfFrom lo m = true) (hn : wfFrom lo n = true)
    (h : ∀ a, readAt a m = readAt a n) : m = n := by
  induction m generalizing lo n with
  | nil =>
    cases n with
    | nil => rfl
    | cons d n =>
      simp only [wfFrom, Bool.and_eq_true, decide_eq_true_eq] at hn
      have := h d.1
      simp only [readAt, if_pos] at this
      exact absurd this.symm hn.1.2
  | cons c m ih =>
    cases n with
    | nil =>
      simp only [wfFrom, Bool.and_eq_true, decide_eq_true_eq] at hm
      have := h c.1
      simp only [readAt, if_pos] at this
      exact absurd this hm.1.2
    | cons d n =>
      have hm' := hm
      have hn' := hn
      simp only [wfFrom, Bool.and_eq_true, decide_eq_true_eq] at hm' hn'
      have hkey : c.1 = d.1 := by
        rcases Nat.lt_trichotomy c.1 d.1 with hlt | heq | hgt
        · have hx := h c.1
          rw [readAt_of_wfFrom (lo := d.1) (m := d :: n)] at hx
          · simp only [readAt, if_pos] at hx
            exact absurd hx hm'.1.2
          · simp only [wfFrom, Bool.and_eq_true, decide_eq_true_eq]
            exact ⟨⟨⟨Nat.le_refl _, hn'.1.1.2⟩, hn'.1.2⟩, hn'.2⟩
          · exact hlt
        · exact heq
        · have hx := h d.1
          rw [readAt_of_wfFrom (lo := c.1) (m := c :: m)] at hx
          · simp only [readAt, if_pos] at hx
            exact absurd hx.symm hn'.1.2
          · simp only [wfFrom, Bool.and_eq_true, decide_eq_true_eq]
            exact ⟨⟨⟨Nat.le_refl _, hm'.1.1.2⟩, hm'.1.2⟩, hm'.2⟩
          · exact hgt
      have hword : c.2 = d.2 := by
        have hx := h c.1
        rw [readAt, if_pos rfl, readAt, if_pos hkey.symm] at hx
        exact hx
      have hcd : c = d := Prod.ext hkey hword
      subst hcd
      refine congrArg (c :: ·) (ih hm'.2 hn'.2 fun a => ?_)
      by_cases ha : a ≤ c.1
      · rw [readAt_of_wfFrom hm'.2 (by omega), readAt_of_wfFrom hn'.2 (by omega)]
      · have hx := h a
        rw [readAt, if_neg (by omega), readAt, if_neg (by omega)] at hx
        exact hx

end Sys2Proof.Machine.NodeMem
end

