-- ==== Sys2Proof/Laws/State.lean ====
section
/-! SUPPORT. One lemma per field per named update of State, true by rfl. -/

namespace Sys2Proof.Machine

@[simp] theorem setSt_st (x : St) (s : State) : (setSt x s).st = x := rfl
@[simp] theorem setSt_cursor (x : St) (s : State) : (setSt x s).cursor = s.cursor := rfl
@[simp] theorem setSt_err (x : St) (s : State) : (setSt x s).err = s.err := rfl
@[simp] theorem setSt_rst (x : St) (s : State) : (setSt x s).rst = s.rst := rfl
@[simp] theorem setSt_nodes (x : St) (s : State) : (setSt x s).nodes = s.nodes := rfl
@[simp] theorem setSt_bits (x : St) (s : State) : (setSt x s).bits = s.bits := rfl
@[simp] theorem setSt_pos (x : St) (s : State) : (setSt x s).pos = s.pos := rfl
@[simp] theorem setSt_out (x : St) (s : State) : (setSt x s).out = s.out := rfl

@[simp] theorem setCursor_st (i : NodeIdx) (s : State) : (setCursor i s).st = s.st := rfl
@[simp] theorem setCursor_cursor (i : NodeIdx) (s : State) : (setCursor i s).cursor = i := rfl
@[simp] theorem setCursor_err (i : NodeIdx) (s : State) : (setCursor i s).err = s.err := rfl
@[simp] theorem setCursor_rst (i : NodeIdx) (s : State) : (setCursor i s).rst = s.rst := rfl
@[simp] theorem setCursor_nodes (i : NodeIdx) (s : State) : (setCursor i s).nodes = s.nodes := rfl
@[simp] theorem setCursor_bits (i : NodeIdx) (s : State) : (setCursor i s).bits = s.bits := rfl
@[simp] theorem setCursor_pos (i : NodeIdx) (s : State) : (setCursor i s).pos = s.pos := rfl
@[simp] theorem setCursor_out (i : NodeIdx) (s : State) : (setCursor i s).out = s.out := rfl

@[simp] theorem emitByte_st (b : Byte) (s : State) : (emitByte b s).st = s.st := rfl
@[simp] theorem emitByte_cursor (b : Byte) (s : State) : (emitByte b s).cursor = s.cursor := rfl
@[simp] theorem emitByte_err (b : Byte) (s : State) : (emitByte b s).err = s.err := rfl
@[simp] theorem emitByte_rst (b : Byte) (s : State) : (emitByte b s).rst = s.rst := rfl
@[simp] theorem emitByte_nodes (b : Byte) (s : State) : (emitByte b s).nodes = s.nodes := rfl
@[simp] theorem emitByte_bits (b : Byte) (s : State) : (emitByte b s).bits = s.bits := rfl
@[simp] theorem emitByte_pos (b : Byte) (s : State) : (emitByte b s).pos = s.pos := rfl
@[simp] theorem emitByte_out (b : Byte) (s : State) : (emitByte b s).out = s.out ++ [b] := rfl

@[simp] theorem raiseTruncatedStream_st (s : State) : (raiseTruncatedStream s).st = .fault := rfl
@[simp] theorem raiseTruncatedStream_cursor (s : State) : (raiseTruncatedStream s).cursor = s.cursor := rfl
@[simp] theorem raiseTruncatedStream_err (s : State) : (raiseTruncatedStream s).err = .truncated := rfl
@[simp] theorem raiseTruncatedStream_rst (s : State) : (raiseTruncatedStream s).rst = s.rst := rfl
@[simp] theorem raiseTruncatedStream_nodes (s : State) : (raiseTruncatedStream s).nodes = s.nodes := rfl
@[simp] theorem raiseTruncatedStream_bits (s : State) : (raiseTruncatedStream s).bits = s.bits := rfl
@[simp] theorem raiseTruncatedStream_pos (s : State) : (raiseTruncatedStream s).pos = s.pos := rfl
@[simp] theorem raiseTruncatedStream_out (s : State) : (raiseTruncatedStream s).out = s.out := rfl

@[simp] theorem resetBlock_st (s : State) : (resetBlock s).st = .atRoot := rfl
@[simp] theorem resetBlock_cursor (s : State) : (resetBlock s).cursor = Config.root := rfl
@[simp] theorem resetBlock_err (s : State) : (resetBlock s).err = .none := rfl
@[simp] theorem resetBlock_rst (s : State) : (resetBlock s).rst = s.rst := rfl
@[simp] theorem resetBlock_nodes (s : State) : (resetBlock s).nodes = s.nodes := rfl
@[simp] theorem resetBlock_bits (s : State) : (resetBlock s).bits = s.bits := rfl
@[simp] theorem resetBlock_pos (s : State) : (resetBlock s).pos = s.pos := rfl
@[simp] theorem resetBlock_out (s : State) : (resetBlock s).out = s.out := rfl

@[simp] theorem emitAndRestart_st (x : Byte) (s : State) : (emitAndRestart x s).st = .atRoot := rfl
@[simp] theorem emitAndRestart_cursor (x : Byte) (s : State) : (emitAndRestart x s).cursor = Config.root := rfl
@[simp] theorem emitAndRestart_err (x : Byte) (s : State) : (emitAndRestart x s).err = s.err := rfl
@[simp] theorem emitAndRestart_rst (x : Byte) (s : State) : (emitAndRestart x s).rst = s.rst := rfl
@[simp] theorem emitAndRestart_nodes (x : Byte) (s : State) : (emitAndRestart x s).nodes = s.nodes := rfl
@[simp] theorem emitAndRestart_bits (x : Byte) (s : State) : (emitAndRestart x s).bits = s.bits := rfl
@[simp] theorem emitAndRestart_pos (x : Byte) (s : State) : (emitAndRestart x s).pos = s.pos := rfl
@[simp] theorem emitAndRestart_out (x : Byte) (s : State) : (emitAndRestart x s).out = s.out ++ [x] := rfl

@[simp] theorem placeWord_st (w : NodeWord) (s : State) : (placeWord w s).st = .descending := rfl
@[simp] theorem placeWord_cursor (w : NodeWord) (s : State) : (placeWord w s).cursor = s.cursor := rfl
@[simp] theorem placeWord_err (w : NodeWord) (s : State) : (placeWord w s).err = s.err := rfl
@[simp] theorem placeWord_rst (w : NodeWord) (s : State) : (placeWord w s).rst = false := rfl
@[simp] theorem placeWord_nodes (w : NodeWord) (s : State) : (placeWord w s).nodes = NodeMem.write s.nodes s.cursor w := rfl
@[simp] theorem placeWord_bits (w : NodeWord) (s : State) : (placeWord w s).bits = s.bits := rfl
@[simp] theorem placeWord_pos (w : NodeWord) (s : State) : (placeWord w s).pos = s.pos := rfl
@[simp] theorem placeWord_out (w : NodeWord) (s : State) : (placeWord w s).out = s.out := rfl

@[simp] theorem assertRst_st (s : State) : (assertRst s).st = s.st := rfl
@[simp] theorem assertRst_cursor (s : State) : (assertRst s).cursor = s.cursor := rfl
@[simp] theorem assertRst_err (s : State) : (assertRst s).err = s.err := rfl
@[simp] theorem assertRst_rst (s : State) : (assertRst s).rst = true := rfl
@[simp] theorem assertRst_nodes (s : State) : (assertRst s).nodes = s.nodes := rfl
@[simp] theorem assertRst_bits (s : State) : (assertRst s).bits = s.bits := rfl
@[simp] theorem assertRst_pos (s : State) : (assertRst s).pos = s.pos := rfl
@[simp] theorem assertRst_out (s : State) : (assertRst s).out = s.out := rfl

@[simp] theorem releaseRst_st (s : State) : (releaseRst s).st = s.st := rfl
@[simp] theorem releaseRst_cursor (s : State) : (releaseRst s).cursor = s.cursor := rfl
@[simp] theorem releaseRst_err (s : State) : (releaseRst s).err = s.err := rfl
@[simp] theorem releaseRst_rst (s : State) : (releaseRst s).rst = false := rfl
@[simp] theorem releaseRst_nodes (s : State) : (releaseRst s).nodes = s.nodes := rfl
@[simp] theorem releaseRst_bits (s : State) : (releaseRst s).bits = s.bits := rfl
@[simp] theorem releaseRst_pos (s : State) : (releaseRst s).pos = s.pos := rfl
@[simp] theorem releaseRst_out (s : State) : (releaseRst s).out = s.out := rfl

@[simp] theorem launch_st (m : NodeMem) (bits : List Bit) : (State.launch m bits).st = .atRoot := rfl
@[simp] theorem launch_cursor (m : NodeMem) (bits : List Bit) : (State.launch m bits).cursor = Config.root := rfl
@[simp] theorem launch_err (m : NodeMem) (bits : List Bit) : (State.launch m bits).err = .none := rfl
@[simp] theorem launch_rst (m : NodeMem) (bits : List Bit) : (State.launch m bits).rst = false := rfl
@[simp] theorem launch_nodes (m : NodeMem) (bits : List Bit) : (State.launch m bits).nodes = m := rfl
@[simp] theorem launch_bits (m : NodeMem) (bits : List Bit) : (State.launch m bits).bits = bits := rfl
@[simp] theorem launch_pos (m : NodeMem) (bits : List Bit) : (State.launch m bits).pos = 0 := rfl
@[simp] theorem launch_out (m : NodeMem) (bits : List Bit) : (State.launch m bits).out = [] := rfl

end Sys2Proof.Machine
end

