-- ==== Sys2Proof/Laws/Host.lean ====
section
/-! SUPPORT. What each host move can do, said once. -/

namespace Sys2Proof.Machine

/-- Reset memory has the canonical form. -/
theorem wf_reset : NodeMem.wf State.reset.nodes = true := rfl

/-- Placing a word keeps the canonical form. -/
theorem wf_placeWord (w : NodeWord) (s : State) (h : NodeMem.wf s.nodes = true) :
    NodeMem.wf (placeWord w s).nodes = true :=
  NodeMem.wf_write s.nodes s.cursor w h

/-- The word placed is the word fetched. -/
theorem fetch_placeWord (w : NodeWord) (s : State) (h : NodeMem.wf s.nodes = true) : fetch (placeWord w s) = w := by
  show NodeMem.read (NodeMem.write s.nodes s.cursor w) s.cursor = w
  rw [NodeMem.read_write _ _ _ _ h, if_pos rfl]

/-- A node write goes on exactly under reset, and changes node memory alone. -/
theorem hostWriteNode_next_iff (i : NodeIdx) (w : NodeWord) (s t : State) :
    hostWriteNode i w s = .next t ↔ s.rst = true ∧ t = { s with nodes := NodeMem.write s.nodes i w } := by
  unfold hostWriteNode
  cases h : s.rst
  · simp
  · simpa [h] using eq_comm

/-- Presenting a source goes on exactly under reset, and sets the stream at its first bit. -/
theorem hostPresentSource_next_iff (bits : List Bit) (s t : State) :
    hostPresentSource bits s = .next t ↔ s.rst = true ∧ t = { s with bits := bits, pos := 0 } := by
  unfold hostPresentSource
  cases h : s.rst
  · simp
  · simpa [h] using eq_comm

/-- Preparing the sink goes on exactly under reset, and empties it. -/
theorem hostPrepareSink_next_iff (s t : State) :
    hostPrepareSink s = .next t ↔ s.rst = true ∧ t = { s with out := [] } := by
  unfold hostPrepareSink
  cases h : s.rst
  · simp
  · simpa [h] using eq_comm

/-- Two moves go on when each does. -/
theorem andThen_next_iff (o : StepOutcome) (f : State → StepOutcome) (t : State) :
    andThen o f = .next t ↔ ∃ s, o = .next s ∧ f s = .next t := by
  cases o <;> simp [andThen]

end Sys2Proof.Machine
end

