-- ==== Sys2Proof/Laws/Ops.lean ====
section
/-! SUPPORT. What each shared operation can do, said once. -/

namespace Sys2Proof.Machine

theorem hasNext_iff (s : State) : hasNext s = true ↔ s.pos < s.bits.length := by
  simp [hasNext]

theorem hasNext_false_iff (s : State) : hasNext s = false ↔ s.bits.length ≤ s.pos := by
  simp [hasNext]

theorem hasNext_iff_some (s : State) : hasNext s = true ↔ ∃ b, s.bits[s.pos]? = some b := by
  rw [hasNext_iff]
  constructor
  · intro h
    exact ⟨s.bits[s.pos], List.getElem?_eq_getElem h⟩
  · rintro ⟨b, hb⟩
    exact (List.getElem?_eq_some_iff.1 hb).1

/-- `bitRead` answers the next bit with `pos` one greater, and nothing else changed. -/
theorem bitRead_next_iff (s t : State) (b : Bit) :
    bitRead s = .next (b, t) ↔ s.bits[s.pos]? = some b ∧ t = { s with pos := s.pos + 1 } := by
  unfold bitRead
  cases h : s.bits[s.pos]? with
  | none => simp
  | some c =>
    simp only [Host.Outcome.next.injEq, Prod.mk.injEq, Option.some.injEq]
    constructor <;> rintro ⟨rfl, rfl⟩ <;> exact ⟨rfl, rfl⟩

/-- Where `takeBranch` goes on, one bit was read and the cursor is at the child it selects. -/
theorem takeBranch_next_iff (l r : NodeIdx) (s t : State) :
    takeBranch l r s = .next t ↔
      ∃ b, s.bits[s.pos]? = some b ∧ t = { s with pos := s.pos + 1, cursor := selectChild l r b } := by
  unfold takeBranch bitRead
  cases h : s.bits[s.pos]? with
  | none => simp
  | some c =>
    simp only [Host.Outcome.next.injEq, Option.some.injEq, exists_eq_left', setCursor]
    exact eq_comm

/-- What `INT` in Descending can do: branch, or take the exception. -/
theorem descendInt_next {l r : NodeIdx} {s t : State} (h : descendInt l r s = .next t) :
    (∃ b, s.bits[s.pos]? = some b ∧ t = { s with pos := s.pos + 1, cursor := selectChild l r b }) ∨
    (s.bits.length ≤ s.pos ∧ t = raiseTruncatedStream s) := by
  unfold descendInt at h
  split at h
  · exact .inl ((takeBranch_next_iff l r s t).1 h)
  · next hn =>
    refine .inr ⟨(hasNext_false_iff s).1 (by simpa using hn), ?_⟩
    injection h with h
    exact h.symm

/-- What one controller step can do, by the controller state (R119). -/
theorem controllerStep_next {f : State → StepOutcome} {x : Byte} {s t : State}
    (h : controllerStep f x s = .next t) :
    (s.st = .atRoot ∧ t = startOrFinish s) ∨ (s.st = .descending ∧ f s = .next t) ∨
    (s.st = .emit ∧ t = emitAndRestart x s) ∨ (s.st = .done ∧ t = s) ∨ (s.st = .fault ∧ t = s) := by
  unfold controllerStep at h
  split at h <;> next hs =>
    first
    | exact .inr (.inl ⟨hs, h⟩)
    | (injection h with h; subst h; simp [hs])

/-- AtRoot stops on an empty stream and starts a symbol otherwise. -/
theorem startOrFinish_cases (s : State) :
    (s.pos < s.bits.length ∧ startOrFinish s = setSt .descending (setCursor Config.root s)) ∨
    (s.bits.length ≤ s.pos ∧ startOrFinish s = setSt .done s) := by
  unfold startOrFinish
  split
  · next h => exact .inl ⟨(hasNext_iff s).1 h, rfl⟩
  · next h => exact .inr ⟨(hasNext_false_iff s).1 (by simpa using h), rfl⟩

end Sys2Proof.Machine
end

