-- ==== Sys2Proof/Laws/PerInstr.lean ====
section
/-! SUPPORT. Per-instruction facts: an instruction's word matches its own row of the opcode table and no other (spec/30_encoding.md R75). -/

namespace Sys2Proof.Laws.OpcodeMatch

/-- The masked word of `i` is the match value of `i`'s row. -/
def Statement (i : Instr) : Prop := encode i &&& opcodeMask = opcodeMatch i

theorem mask_eq (w : NodeWord) : w &&& opcodeMask = if tag w then 0x40000#19 else 0x00000#19 := by
  have hm : opcodeMask = BitVec.twoPow 19 18 := by decide
  rw [hm, BitVec.and_twoPow]
  rfl

theorem int (l r : NodeIdx) : Statement (.int l r) := by
  show encINT l r &&& opcodeMask = _
  rw [mask_eq, tag_encINT]
  rfl

theorem leaf (s : Byte) : Statement (.leaf s) := by
  show encLEAF s &&& opcodeMask = _
  rw [mask_eq, tag_encLEAF]
  rfl

end Sys2Proof.Laws.OpcodeMatch
end

