-- ==== Sys2Proof/Laws/Step.lean ====
section
/-! SUPPORT. What a step can do, said once: the rules R111 to R118 and the reset of R170. -/

namespace Sys2Proof.Machine

/-- The cases of one clock edge that answers `t`. -/
inductive StepCase (s t : State) : Prop where
  | reset (h : s.rst = true) (ht : t = resetBlock s)
  | finish (h : s.rst = false) (hs : s.st = .atRoot) (hn : s.bits.length ≤ s.pos) (ht : t = setSt .done s)
  | start (h : s.rst = false) (hs : s.st = .atRoot) (hn : s.pos < s.bits.length)
      (ht : t = setSt .descending (setCursor Config.root s))
  | branch (h : s.rst = false) (hs : s.st = .descending) (hw : tag (fetch s) = false) (b : Bit)
      (hb : s.bits[s.pos]? = some b) (ht : t = { s with pos := s.pos + 1, cursor := child (fetch s) b })
  | truncate (h : s.rst = false) (hs : s.st = .descending) (hw : tag (fetch s) = false)
      (hn : s.bits.length ≤ s.pos) (ht : t = raiseTruncatedStream s)
  | recognise (h : s.rst = false) (hs : s.st = .descending) (hw : tag (fetch s) = true) (ht : t = setSt .emit s)
  | emit (h : s.rst = false) (hs : s.st = .emit) (ht : t = emitAndRestart (sym (fetch s)) s)
  | stay (h : s.rst = false) (hs : s.st = .done ∨ s.st = .fault) (ht : t = s)

/-- A step that answers a next state is one of the cases. -/
theorem step_cases {s t : State} (h : step s = .next t) : StepCase s t := by
  unfold step at h
  split at h
  · next hr =>
    injection h with h
    exact .reset hr h.symm
  · next hr =>
    have hr : s.rst = false := by simpa using hr
    unfold fetchInstr decode at h
    by_cases hw : tag (fetch s) = true
    · rw [if_pos hw] at h
      rcases controllerStep_next h with ⟨hs, ht⟩ | ⟨hs, ht⟩ | ⟨hs, ht⟩ | ⟨hs, ht⟩ | ⟨hs, ht⟩
      · rcases startOrFinish_cases s with ⟨hn, he⟩ | ⟨hn, he⟩
        · exact .start hr hs hn (ht.trans he)
        · exact .finish hr hs hn (ht.trans he)
      · injection ht with ht
        exact .recognise hr hs hw ht.symm
      · exact .emit hr hs ht
      · exact .stay hr (.inl hs) ht
      · exact .stay hr (.inr hs) ht
    · have hw : tag (fetch s) = false := by simpa using hw
      rw [if_neg (by simp [hw])] at h
      rcases controllerStep_next h with ⟨hs, ht⟩ | ⟨hs, ht⟩ | ⟨hs, ht⟩ | ⟨hs, ht⟩ | ⟨hs, ht⟩
      · rcases startOrFinish_cases s with ⟨hn, he⟩ | ⟨hn, he⟩
        · exact .start hr hs hn (ht.trans he)
        · exact .finish hr hs hn (ht.trans he)
      · rcases descendInt_next ht with ⟨b, hb, he⟩ | ⟨hn, he⟩
        · exact .branch hr hs hw b hb he
        · exact .truncate hr hs hw hn he
      · refine .emit hr hs (ht.trans ?_)
        rw [sym_eq_symOfInt]
      · exact .stay hr (.inl hs) ht
      · exact .stay hr (.inr hs) ht

/-- The host's `run` of the machine is `runSteps`. -/
theorem runSteps_eq_run (k : Nat) (s : State) : runSteps k s = Host.Core.run core k s := by
  induction k generalizing s with
  | zero => rfl
  | succ k ih =>
    refine Eq.trans ?_ (Host.Core.run.eq_2 core s k).symm
    rw [runSteps]
    cases hs : step s with
    | next t =>
      rw [show core.step s = .next t from hs]
      exact ih t
    | fault r =>
      rw [show core.step s = .fault r from hs]
      rfl
    | refused r =>
      rw [show core.step s = .refused r from hs]
      rfl

/-- Runs compose. -/
theorem runSteps_add (j k : Nat) {s t : State} (h : runSteps j s = .next t) : runSteps (j + k) s = runSteps k t := by
  induction j generalizing s with
  | zero =>
    injection h with h
    rw [Nat.zero_add, h]
  | succ j ih =>
    rw [Nat.succ_add, runSteps]
    rw [runSteps] at h
    cases hs : step s with
    | next u =>
      rw [hs] at h
      exact ih h
    | fault r =>
      rw [hs] at h
      cases h
    | refused r =>
      rw [hs] at h
      cases h

/-- What holds at the start and is kept by every step holds after any number of steps. -/
theorem runSteps_induction {P : State → Prop} (hstep : ∀ s t, P s → step s = .next t → P t) (k : Nat) {s t : State}
    (hs : P s) (h : runSteps k s = .next t) : P t := by
  induction k generalizing s with
  | zero =>
    injection h with h
    exact h ▸ hs
  | succ k ih =>
    rw [runSteps] at h
    cases hst : step s with
    | next u =>
      rw [hst] at h
      exact ih (hstep s u hs hst) h
    | fault r =>
      rw [hst] at h
      cases h
    | refused r =>
      rw [hst] at h
      cases h

end Sys2Proof.Machine
end

