-- ==== Sys2Proof/Tests/Slice0.lean ====
section
/-! SUPPORT. The model's own tests. Expected values are the vectors V<n> and programs P<n> of spec/95_test_vectors.md, or hand readings of the rules named; the last section holds the witnesses of the statements' hypotheses. -/

namespace Sys2Proof.Tests

open Sys2Proof.Machine

/- Helpers. -/

/-- The outcome is the next state `t`. -/
def nextIs (o : StepOutcome) (t : State) : Bool :=
  match o with
  | .next s => decide (s = t)
  | _ => false

/-- The memory whose first words are `ws`. -/
def image (ws : List NodeWord) : NodeMem := NodeMem.writeImage 0 ws []

/-- The image of program P1. -/
def imageP1 : NodeMem :=
  image [0x00206#19, 0x00403#19, 0x40042#19, 0x00805#19, 0x40043#19, 0x40044#19, 0x40041#19]

/-- The image of program P4. -/
def imageP4 : NodeMem := image [0x00202#19, 0x40041#19, 0x40042#19]

/-- A configuration `(st, cursor, err, pos, out)` over an image and a stream. -/
def conf (m : NodeMem) (bits : List Bit) (st : St) (cursor : NodeIdx) (err : ErrCode) (pos : Nat) (out : List Byte) :
    State :=
  { State.launch m bits with st := st, cursor := cursor, err := err, pos := pos, out := out }

/-- The stream "1110000010" of program P1. -/
def bitsP1 : List Bit := [true, true, true, false, false, false, false, false, true, false]

/-- The bytes "AAA". -/
def aaa : List Byte := [65#8, 65#8, 65#8]

/- Well-formedness smoke tests: an ill-formed term for each check. -/

theorem test_listing_left_refused : (Listing.int 512 0).assemble = none := by decide
theorem test_listing_right_refused : (Listing.int 0 512).assemble = none := by decide
theorem test_listing_symbol_refused : (Listing.leaf 256).assemble = none := by decide
theorem test_listing_bounds_accepted :
    (Listing.int 511 511).assemble = some (.int 511#9 511#9) ∧ (Listing.leaf 255).assemble = some (.leaf 255#8) := by
  decide
theorem test_memory_unsorted_refused : NodeMem.wf [(1, 1#19), (0, 1#19)] = false := by decide
theorem test_memory_repeat_refused : NodeMem.wf [(1, 1#19), (1, 2#19)] = false := by decide
theorem test_memory_index_refused : NodeMem.wf [(512, 1#19)] = false := by decide
theorem test_memory_erased_cell_refused : NodeMem.wf [(0, 0#19)] = false := by decide
theorem test_memory_reset_wf : NodeMem.wf State.reset.nodes = true := by decide
/-- V27: erased memory is a cycle through the root. -/
theorem test_image_cycle_refused : wellFormedImage [] = false := by decide
/-- V14, V29: `INT 1, 1` shares its child. -/
theorem test_image_sharing_refused : wellFormedImage (image [0x00201#19, 0x4005A#19]) = false := by decide
theorem test_image_p1_accepted : wellFormedImage imageP1 = true := by decide

/- Decoding: words written out bit by bit from R71 and R73. -/

/-- V1: tag 0, left 000000001, right 000000110. -/
theorem test_decode_int_word : decode 0b0000000001000000110#19 = .int 1#9 6#9 := by decide
/-- V5: which field is which. -/
theorem test_decode_int_fields :
    decode 0b0111111111000000000#19 = .int 511#9 0#9 ∧ decode 0b0000000000111111111#19 = .int 0#9 511#9 := by decide
/-- V6, V7: tag 1, reserved 0000000000, symbol. -/
theorem test_decode_leaf_word :
    decode 0b1000000000001000001#19 = .leaf 65#8 ∧ decode 0b1000000000000000000#19 = .leaf 0#8 := by decide
/-- V8: reserved bits all ones. -/
theorem test_decode_leaf_reserved : decode 0x7FF41#19 = .leaf 65#8 ∧ encode (.leaf 65#8) = 0x40041#19 := by decide
/-- V2, V4. -/
theorem test_encode_int : encode (.int 2#9 3#9) = 0x00403#19 ∧ encode (.int 511#9 511#9) = 0x3FFFF#19 := by decide
/-- V10. -/
theorem test_extractors :
    tag 0x00403#19 = false ∧ left 0x00403#19 = 2#9 ∧ right 0x00403#19 = 3#9 ∧ sym 0x00403#19 = 0x03#8 := by decide
theorem test_table_words :
    decodeTableWord 24 0x40041 = some (.leaf 65#8) ∧ decodeTableWord 19 0x00206 = some (.int 1#9 6#9) := by decide
theorem test_decode_wide_number_refused : decodeNat 0x80000 = .error .widerThanNodeWord := rfl

/- INT. -/

/-- V12: bit 1 goes right. -/
theorem test_int_right :
    nextIs (step (conf imageP1 [true] .descending 1#9 .none 0 [])) (conf imageP1 [true] .descending 3#9 .none 1 []) =
      true := by decide
/-- V13: truncation. -/
theorem test_int_truncates :
    nextIs (step (conf imageP1 [] .descending 1#9 .none 0 aaa)) (conf imageP1 [] .fault 1#9 .truncated 0 aaa) =
      true := by decide

/- LEAF. -/

/-- V23: a leaf with no bit left is no truncation. -/
theorem test_leaf_recognised :
    nextIs (step (conf imageP1 [] .descending 4#9 .none 0 [])) (conf imageP1 [] .emit 4#9 .none 0 []) = true := by
  decide
/-- V17: symbol 0 is emitted like any other. -/
theorem test_leaf_emits_zero :
    nextIs (step (conf (image [0x00202#19, 0x40000#19]) [true] .emit 1#9 .none 1 [9#8]))
      (conf (image [0x00202#19, 0x40000#19]) [true] .atRoot 0#9 .none 1 [9#8, 0#8]) = true := by decide

/- The controller and reset. -/

/-- V18. -/
theorem test_at_root_finishes :
    nextIs (step (conf imageP1 bitsP1 .atRoot 0#9 .none 10 aaa)) (conf imageP1 bitsP1 .done 0#9 .none 10 aaa) =
      true := by decide
/-- V20: no bit consumed. -/
theorem test_at_root_starts :
    nextIs (step (conf imageP1 bitsP1 .atRoot 0#9 .none 3 aaa)) (conf imageP1 bitsP1 .descending 0#9 .none 3 aaa) =
      true := by decide
/-- V26. -/
theorem test_fault_stays :
    nextIs (step (conf imageP1 bitsP1 .fault 3#9 .truncated 5 aaa)) (conf imageP1 bitsP1 .fault 3#9 .truncated 5 aaa) =
      true := by decide
/-- V31. -/
theorem test_reset_edge :
    nextIs (step (assertRst (conf imageP1 bitsP1 .fault 3#9 .truncated 5 aaa)))
      (assertRst (conf imageP1 bitsP1 .atRoot 0#9 .none 5 aaa)) = true := by decide
/-- A word placed at reset runs as the next step: `LEAF 65` is recognised, `INT 1, 2` meets the empty stream. -/
theorem test_with_fetch_word :
    nextIs (step (State.reset.withFetchWord 24 0x40041)) (conf [(0, 0x40041#19)] [] .emit 0#9 .none 0 []) = true ∧
    nextIs (step (State.reset.withFetchWord 24 0x00202)) (conf [(0, 0x00202#19)] [] .fault 0#9 .truncated 0 []) =
      true := by decide

/- Pins: cycles 2 and 4 of V30. -/

theorem test_pins_bit_read :
    (pinsOf (conf imageP4 [false, true] .descending 0#9 .none 0 [])).bsRead = true ∧
    (pinsOf (conf imageP4 [false, true] .descending 0#9 .none 0 [])).outValid = false := by decide
theorem test_pins_byte :
    (pinsOf (conf imageP4 [false, true] .emit 1#9 .none 1 [])).outValid = true ∧
    (pinsOf (conf imageP4 [false, true] .emit 1#9 .none 1 [])).outByte = 0x41#8 := by decide

/- Host tools. -/

/-- V34: the same code in the other order of pairs. -/
theorem test_load_numbering :
    assembleTable [['6', '6'], ['1'], ['6', '5'], ['0']] = .ok [0x00401#19, 0x40042#19, 0x40041#19] := by
  rfl
/-- V37 (S3): "0" is a prefix of "01". -/
theorem test_load_ambiguous : load [['6', '5'], ['0'], ['6', '6'], ['0', '1']] = .error .ambiguousCode := by rfl
/-- V39: three lines. -/
theorem test_load_odd : load [['6', '5'], ['0'], ['6', '6']] = .error .malformedTable := by rfl
/-- V40. -/
theorem test_load_malformed :
    load [['6', 'x'], ['0']] = .error .malformedTable ∧ load [['6', '5'], ['0', '2']] = .error .malformedTable := by
  exact ⟨rfl, rfl⟩
/-- V42. -/
theorem test_image_incomplete : assembleTable [['6', '5'], ['0']] = .error .incompleteCode := by rfl
/-- S2: pre-order, left first. -/
theorem test_save :
    save (.node (.node (.leaf 66#8) (.node (.leaf 67#8) (.leaf 68#8))) (.leaf 65#8)) =
      [['6', '6'], ['0', '0'], ['6', '7'], ['0', '1', '0'], ['6', '8'], ['0', '1', '1'], ['6', '5'], ['1']] := by
  decide
/-- S2: first-removed becomes left, the tie of C and D in insertion order (D21). -/
theorem test_merge_order :
    mergeAll insertionOrder 4 [(5, .leaf 65#8), (2, .leaf 66#8), (1, .leaf 67#8), (1, .leaf 68#8)] =
      .ok (.node (.node (.leaf 66#8) (.node (.leaf 67#8) (.leaf 68#8))) (.leaf 65#8)) := by rfl
/-- Padding is not delivered (R181). -/
theorem test_adapt_leaves_padding_out : (adaptBytes 3 [0x41#8, 0x42#8]).length = 13 := by
  simp [adaptBytes, List.rdrop, unpackByte]
  cases Config.bitOrder <;> simp
/-- The adapter's two orders of the byte 0x01. -/
theorem test_unpack :
    unpackByte .lsbFirst 0x01#8 = [true, false, false, false, false, false, false, false] ∧
    unpackByte .msbFirst 0x01#8 = [false, false, false, false, false, false, false, true] := by decide

/- Witnesses: states and operands that meet the statements' hypotheses. -/

/-- A state in Descending with one unread bit. -/
def walking : State := conf imageP4 [true] .descending 0#9 .none 0 []
/-- A state in Descending with no unread bit. -/
def starving : State := conf imageP4 [] .descending 0#9 .none 0 []
/-- A state in Emit over a leaf. -/
def emitting : State := conf imageP4 [true] .emit 2#9 .none 1 []
/-- A state at a symbol boundary with a bit left. -/
def boundary : State := conf imageP4 [true] .atRoot 0#9 .none 0 []
/-- A state in Done. -/
def finished : State := conf imageP4 [] .done 0#9 .none 0 []
/-- A state in Fault. -/
def faulted : State := conf imageP4 [] .fault 0#9 .truncated 0 []

theorem witness_EncodeOfDecodeKeepsCanonicalWords :
    tag 0x3FFFF#19 = false ∧ tag 0x40041#19 = true ∧ reserved 0x40041#19 = 0#10 ∧
    tag 0x7FF41#19 = true ∧ reserved 0x7FF41#19 ≠ 0#10 := by decide
theorem witness_ReservedLeafBitsAreIgnored :
    tag 0x7FF41#19 = true ∧ (placeWord (leafWord 0x3FF#10 65#8) State.reset).rst = false ∧
    fetch (placeWord (leafWord 0x3FF#10 65#8) State.reset) = leafWord 0x3FF#10 65#8 := by decide
theorem witness_StepRunsWordUnderCursor : walking.rst = false := by decide
theorem witness_AtRootFinishesOnEmptyStream :
    State.reset.st = .atRoot ∧ State.reset.bits.length ≤ State.reset.pos := by decide
theorem witness_AtRootStartsSymbol : boundary.st = .atRoot ∧ boundary.pos < boundary.bits.length := by decide
theorem witness_IntTakesBranch :
    walking.rst = false ∧ walking.st = .descending ∧ tag (fetch walking) = false ∧
    walking.bits[walking.pos]? = some true := by decide
theorem witness_IntTruncatesOnEmptyStream :
    starving.rst = false ∧ starving.st = .descending ∧ tag (fetch starving) = false ∧
    starving.bits.length ≤ starving.pos := by decide
theorem witness_LeafIsRecognised :
    (setCursor 1#9 walking).rst = false ∧ (setCursor 1#9 walking).st = .descending ∧
    tag (fetch (setCursor 1#9 walking)) = true := by decide
theorem witness_EmitOutputsSymbolAndRestarts : emitting.rst = false ∧ emitting.st = .emit := by decide
theorem witness_DoneIsAbsorbing : finished.st = .done ∧ finished.rst = false := by decide
theorem witness_FaultIsAbsorbing : faulted.st = .fault ∧ faulted.rst = false := by decide
theorem witness_OnlyResetLeavesTerminalStates :
    ∃ t, step (assertRst faulted) = .next t ∧ (assertRst faulted).st = .fault ∧ t.st ≠ (assertRst faulted).st :=
  ⟨_, rfl, by decide, by decide⟩
theorem witness_ResetEdgeWritesRegistersOnly : (assertRst faulted).rst = true := by decide
theorem witness_BitRead_clauses :
    boundary.pos < boundary.bits.length ∧ starving.bits.length ≤ starving.pos := by decide
theorem witness_EmptySourceStaysEmpty :
    ∃ t, hasNext starving = false ∧ runSteps 2 starving = .next t := ⟨_, by decide, rfl⟩
theorem witness_ExecFrame_branch :
    ∃ t, exec (.int 1#9 2#9) walking = .next t ∧ t.pos = walking.pos + 1 := ⟨_, rfl, by decide⟩
theorem witness_ExecFrame_emit :
    ∃ t, exec (.leaf 66#8) emitting = .next t ∧ t.out = emitting.out ++ [66#8] := ⟨_, rfl, by decide⟩
theorem witness_ExecFrame_truncate :
    ∃ t, exec (.int 1#9 2#9) starving = .next t ∧ t.err = .truncated := ⟨_, rfl, by decide⟩
theorem witness_CursorMoves_child :
    ∃ t, step walking = .next t ∧ t.cursor = 2#9 := ⟨_, rfl, by decide⟩
theorem witness_CursorMoves_root :
    ∃ t, step emitting = .next t ∧ t.cursor = Config.root := ⟨_, rfl, by decide⟩
theorem witness_ErrWritten_truncation :
    ∃ t, step starving = .next t ∧ t.err ≠ starving.err := ⟨_, rfl, by decide⟩
theorem witness_ErrWritten_reset :
    ∃ t, step (assertRst faulted) = .next t ∧ (assertRst faulted).err = .truncated ∧ t.err ≠ .truncated :=
  ⟨_, rfl, by decide, by decide⟩
theorem witness_StreamsOnlyGrow : ∃ t, runSteps 2 walking = .next t := ⟨_, rfl⟩
theorem witness_InvariantHoldsAtLaunch : NodeMem.wf imageP4 = true := by decide
theorem witness_EveryStepKeepsInvariant : ∃ t, Inv emitting ∧ step emitting = .next t :=
  ⟨_, ⟨by decide, by decide, by decide, by decide, by decide, by decide, by decide⟩, rfl⟩
theorem witness_TruncationIsMidSymbol_start :
    boundary.rst = false ∧ boundary.st = .atRoot ∧ boundary.pos < boundary.bits.length ∧
    tag (NodeMem.read boundary.nodes Config.root) = false := by decide
/-- P2 (b): three steps from the launch to Fault. -/
theorem witness_TruncationIsMidSymbol_fault :
    ∃ t, runSteps 3 (State.launch imageP1 [false]) = .next t ∧ t.st = .fault := ⟨_, rfl, by decide⟩
theorem witness_RunsTerminate_int_root : tag (NodeMem.read imageP4 Config.root) = false := by decide
theorem witness_SingleLeafRun :
    tag (NodeMem.read (image [0x40041#19]) Config.root) = true ∧ ([false] : List Bit) ≠ [] ∧
    ∃ t, runSteps 3 (State.launch (image [0x40041#19]) [false]) = .next t := ⟨by decide, by decide, _, rfl⟩
theorem witness_SymbolTakesDepthPlusThreeSteps :
    boundary.rst = false ∧ boundary.st = .atRoot ∧ boundary.pos < boundary.bits.length ∧
    reach boundary.nodes Config.root [true] = some 2#9 ∧ tag (NodeMem.read boundary.nodes 2#9) = true ∧
    [true] <+: boundary.bits.drop boundary.pos := by decide
/-- Depth 0, with a leaf at the root. -/
theorem witness_SymbolTakesDepthPlusThreeSteps_depth_zero :
    reach (image [0x40041#19]) Config.root [] = some Config.root ∧
    tag (NodeMem.read (image [0x40041#19]) Config.root) = true ∧ ([] : List Bit) <+: [false] := by decide

/-- From the root of P4's image exactly three paths lead to a node. -/
theorem reach_imageP4 (p : List Bit) (i : NodeIdx) (h : reach imageP4 Config.root p = some i) :
    (p = [] ∧ i = 0#9) ∨ (p = [false] ∧ i = 1#9) ∨ (p = [true] ∧ i = 2#9) := by
  have h0 : tag (NodeMem.read imageP4 Config.root) = false := by decide
  have h1 : tag (NodeMem.read imageP4 1#9) = true := by decide
  have h2 : tag (NodeMem.read imageP4 2#9) = true := by decide
  have hf : child (NodeMem.read imageP4 Config.root) false = 1#9 := by decide
  have ht : child (NodeMem.read imageP4 Config.root) true = 2#9 := by decide
  match p with
  | [] =>
    injection h with h
    exact .inl ⟨rfl, h.symm⟩
  | [false] =>
    simp only [reach, h0, hf, Bool.false_eq_true, if_false, Option.some.injEq] at h
    exact .inr (.inl ⟨rfl, h.symm⟩)
  | [true] =>
    simp only [reach, h0, ht, Bool.false_eq_true, if_false, Option.some.injEq] at h
    exact .inr (.inr ⟨rfl, h.symm⟩)
  | false :: _ :: _ => simp [reach, h0, hf, h1] at h
  | true :: _ :: _ => simp [reach, h0, ht, h2] at h

theorem witness_WellFormedImage : WellFormedImage imageP4 ∧ tag (NodeMem.read imageP4 Config.root) = false := by
  refine ⟨fun p q i hp hq => ?_, by decide⟩
  rcases reach_imageP4 p i hp with ⟨rfl, rfl⟩ | ⟨rfl, rfl⟩ | ⟨rfl, rfl⟩ <;>
    rcases reach_imageP4 q _ hq with ⟨rfl, h⟩ | ⟨rfl, h⟩ | ⟨rfl, h⟩ <;> first | rfl | exact absurd h (by decide)

/-- The tree of P4. -/
def treeP4 : CodeTree := .node (.leaf 65#8) (.leaf 66#8)

/-- V33 and V34: two numberings of one tree. -/
theorem witness_OutputDependsOnDenotedTreeOnly :
    Denotes imageP4 Config.root treeP4 ∧ Denotes (image [0x00401#19, 0x40042#19, 0x40041#19]) Config.root treeP4 := by
  constructor
  · exact .node _ (.leaf 65#8) (.leaf 66#8) (by decide) (.leaf (m := imageP4) 1#9 (by decide))
      (.leaf (m := imageP4) 2#9 (by decide))
  · exact .node _ (.leaf 65#8) (.leaf 66#8) (by decide)
      (.leaf (m := image [0x00401#19, 0x40042#19, 0x40041#19]) 2#9 (by decide))
      (.leaf (m := image [0x00401#19, 0x40042#19, 0x40041#19]) 1#9 (by decide))

theorem witness_CodeWordsDecodeToTheirSymbols :
    ∀ c ∈ ([([true], 66#8), ([false], 65#8)] : List CodeWord), c ∈ treeP4.leaves := by decide
/-- Three steps of P4's run over "1" reach Emit: one to start, one to branch, one to recognise the leaf. -/
theorem witness_ByteFollowsItsCodeWord :
    ∃ s, runSteps 3 (State.launch imageP4 (([([true], 66#8)] : List CodeWord).flatMap Prod.fst)) = .next s ∧
      s.st = .emit := ⟨_, rfl, by decide⟩
/-- An image with code words of two bits: the tree of B "00", C "01", A "1". -/
def imageTwoBits : NodeMem := image [0x00204#19, 0x00403#19, 0x40042#19, 0x40043#19, 0x40041#19]

/-- The tree of `imageTwoBits`. -/
def treeTwoBits : CodeTree := .node (.node (.leaf 66#8) (.leaf 67#8)) (.leaf 65#8)

/-- From the root of `imageTwoBits` exactly five paths lead to a node. -/
theorem reach_imageTwoBits (p : List Bit) (i : NodeIdx) (h : reach imageTwoBits Config.root p = some i) :
    (p, i) ∈ ([([], 0#9), ([false], 1#9), ([false, false], 2#9), ([false, true], 3#9), ([true], 4#9)] :
      List (List Bit × NodeIdx)) := by
  have h0 : tag (NodeMem.read imageTwoBits Config.root) = false := by decide
  have h1 : tag (NodeMem.read imageTwoBits 1#9) = false := by decide
  have h2 : tag (NodeMem.read imageTwoBits 2#9) = true := by decide
  have h3 : tag (NodeMem.read imageTwoBits 3#9) = true := by decide
  have h4 : tag (NodeMem.read imageTwoBits 4#9) = true := by decide
  have c0 : child (NodeMem.read imageTwoBits Config.root) false = 1#9 := by decide
  have c1 : child (NodeMem.read imageTwoBits Config.root) true = 4#9 := by decide
  have d0 : child (NodeMem.read imageTwoBits 1#9) false = 2#9 := by decide
  have d1 : child (NodeMem.read imageTwoBits 1#9) true = 3#9 := by decide
  match p with
  | [] => simp_all [reach, Config.root]
  | [false] => simp_all [reach]
  | [true] => simp_all [reach]
  | [false, false] => simp_all [reach]
  | [false, true] => simp_all [reach]
  | true :: _ :: _ => simp [reach, h0, c1, h4] at h
  | false :: false :: _ :: _ => simp [reach, h0, c0, h1, d0, h2] at h
  | false :: true :: _ :: _ => simp [reach, h0, c0, h1, d1, h3] at h

/-- A well-formed image whose tree has a code word of two bits, and a non-empty proper prefix of it. -/
theorem witness_TruncatedStreamEndsInFault :
    WellFormedImage imageTwoBits ∧ tag (NodeMem.read imageTwoBits Config.root) = false ∧
    Denotes imageTwoBits Config.root treeTwoBits ∧ (∀ x ∈ ([([true], 65#8)] : List CodeWord), x ∈ treeTwoBits.leaves) ∧
    (([false, true], 67#8) : CodeWord) ∈ treeTwoBits.leaves ∧
    [false] <+: [false, true] ∧ [false] ≠ [false, true] ∧ ([false] : List Bit) ≠ [] := by
  refine ⟨fun p q i hp hq => ?_, by decide, ?_, by decide, by decide, by decide, by decide, by decide⟩
  · have hp := reach_imageTwoBits p i hp
    have hq := reach_imageTwoBits q i hq
    simp only [List.mem_cons, Prod.mk.injEq, List.not_mem_nil, or_false] at hp hq
    rcases hp with ⟨rfl, rfl⟩ | ⟨rfl, rfl⟩ | ⟨rfl, rfl⟩ | ⟨rfl, rfl⟩ | ⟨rfl, rfl⟩ <;> exact Eq.symm (by simpa using hq)
  · exact .node _ _ (.leaf 65#8) (by decide)
      (.node (m := imageTwoBits) 1#9 (.leaf 66#8) (.leaf 67#8) (by decide)
        (.leaf (m := imageTwoBits) 2#9 (by decide)) (.leaf (m := imageTwoBits) 3#9 (by decide)))
      (.leaf (m := imageTwoBits) 4#9 (by decide))
/-- The memories differ at node 7, which P4's image does not reach. -/
theorem witness_UnreachableWordsAreNeverRead :
    ∀ (p : List Bit) (i : NodeIdx), reach imageP4 Config.root p = some i →
      NodeMem.read imageP4 i = NodeMem.read (NodeMem.write imageP4 7#9 0x40001#19) i := by
  intro p i h
  rcases reach_imageP4 p i h with ⟨-, rfl⟩ | ⟨-, rfl⟩ | ⟨-, rfl⟩ <;> decide
theorem witness_StrobesAreExact :
    ∃ t u, (pinsOf emitting).outValid = true ∧ step emitting = .next t ∧ step t = .next u :=
  ⟨_, _, by decide, rfl, rfl⟩
theorem witness_NoStrobeUnderReset :
    ∃ t, (assertRst emitting).rst = true ∧ step (assertRst emitting) = .next t := ⟨_, by decide, rfl⟩
theorem witness_StatusPinsAreLevels :
    ∃ t, faulted.rst = false ∧ step faulted = .next t ∧ (pinsOf faulted).fault = true ∧ (pinsOf finished).done = true :=
  ⟨_, by decide, rfl, by decide, by decide⟩
theorem witness_StatusPinsAreLevels_inv : Inv faulted :=
  ⟨by decide, by decide, by decide, by decide, by decide, by decide, by decide⟩
theorem witness_HostMovesOnlyUnderReset :
    walking.rst = false ∧ (assertRst walking).rst = true ∧ NodeMem.wf (assertRst walking).nodes = true := by decide
theorem witness_InstancesDoNotInteract :
    ([walking, emitting] : Cluster)[1]? = some emitting ∧ sharesTree imageP4 [walking, emitting] = true := by decide
theorem witness_MalformedTablesAreRejected :
    spelledInt ['6', 'x'] = none ∧ spelledInt ['-', '1'] = some (-1) ∧ spelledInt ['2', '5', '6'] = some 256 ∧
    '2' ∈ ['0', '2'] ∧ '2' ≠ '0' ∧ '2' ≠ '1' := by decide
theorem witness_AmbiguousTables :
    (([([false], 65#8), ([true], 66#8)] : List CodeWord).Pairwise fun a b => ¬ a.1 <+: b.1 ∧ ¬ b.1 <+: a.1) ∧
    ([([false], 65#8), ([true], 66#8)] : List CodeWord).Perm [([true], 66#8), ([false], 65#8)] := by decide
/-- The clash of S3, and two leaves at one path (V38). -/
theorem witness_AmbiguousTables_clash :
    (¬ ([([false], 65#8), ([false, true], 66#8)] : List CodeWord).Pairwise
      fun a b => ¬ a.1 <+: b.1 ∧ ¬ b.1 <+: a.1) ∧
    (¬ ([([false], 65#8), ([false], 66#8)] : List CodeWord).Pairwise fun a b => ¬ a.1 <+: b.1 ∧ ¬ b.1 <+: a.1) := by
  decide
theorem witness_IncompleteTreesAreRefused :
    [LoadNode.int (some 1) none].length ≤ Config.nnodes ∧
    ∃ n ∈ [LoadNode.int (some 1) none], loadNodeWord n = none := by decide
theorem witness_SavedTableLoads : treeP4.size ≤ Config.nnodes ∧ NodeMem.wf imageP4 = true := by decide
/-- One positive frequency, for symbol 65. -/
def freq65 : Byte → Nat := fun b => if b = 65#8 then 10 else 0
theorem witness_BuiltTree_one : 0 < freq65 65#8 ∧ ∀ c, c ≠ 65#8 → freq65 c = 0 :=
  ⟨by decide, fun _ h => if_neg h⟩
theorem witness_BuiltTree_none : ∀ b, (fun _ => 0 : Byte → Nat) b = 0 := fun _ => rfl
/-- S1: the single leaf. -/
theorem witness_BuiltTreeFitsNodeMemory : build insertionOrder freq65 = .ok (.leaf 65#8) := by rfl

end Sys2Proof.Tests
end

section
/-! SUPPORT. What the tag decides: the row of the opcode table a word matches, the instruction it decodes to, and the
instruction a step runs (spec/30_encoding.md R75, R76). -/

namespace Sys2Proof

theorem decode_of_tag_true {w : NodeWord} (h : tag w = true) : decode w = .leaf (sym w) := if_pos h

theorem decode_of_tag_false {w : NodeWord} (h : tag w = false) : decode w = .int (left w) (right w) :=
  if_neg (by simp [h])

theorem decode_eq_int_iff (w : NodeWord) : decode w = .int (left w) (right w) ↔ tag w = false := by
  cases h : tag w with
  | false => simp [decode_of_tag_false h]
  | true => simp [decode_of_tag_true h]

theorem decode_eq_leaf_iff (w : NodeWord) : decode w = .leaf (sym w) ↔ tag w = true := by
  cases h : tag w with
  | false => simp [decode_of_tag_false h]
  | true => simp [decode_of_tag_true h]

/-- The mask of the opcode table keeps the tag alone (R75). -/
theorem and_opcodeMask_eq_zero_iff (w : NodeWord) : w &&& opcodeMask = 0x00000#19 ↔ tag w = false := by
  rw [Laws.OpcodeMatch.mask_eq]
  cases tag w <;> decide

theorem and_opcodeMask_eq_leaf_iff (w : NodeWord) : w &&& opcodeMask = 0x40000#19 ↔ tag w = true := by
  rw [Laws.OpcodeMatch.mask_eq]
  cases tag w <;> decide

/-- The decoder ignores the reserved bits `x` (R76). -/
theorem decode_leafWord (x : BitVec 10) (b : Byte) : decode (leafWord x b) = .leaf b := by
  rw [decode_of_tag_true (tag_leafWord x b), sym_leafWord]

/-- Bit by bit: bits 7:0 of a leaf word are its symbol, bits 17:8 its reserved field, bit 18 is the tag. -/
theorem getElem_leafWord (x : BitVec 10) (b : Byte) (i : Nat) (hi : i < 19) :
    (leafWord x b)[i] = if i < 8 then b.getLsbD i else if i < 18 then x.getLsbD (i - 8) else true := by
  by_cases h8 : i < 8
  · have h18 : i ≠ 18 := by omega
    simp [leafWord, getElem_leafTag, h8, h18]
  · by_cases h18 : i < 18
    · have hb : b.getLsbD i = false := BitVec.getLsbD_of_ge b i (by omega)
      have hne : i ≠ 18 := by omega
      simp [leafWord, getElem_leafTag, h8, h18, hb, hne]
    · have hi18 : i = 18 := by omega
      subst hi18
      simp [leafWord, getElem_leafTag]

/-- A word with tag 1 is the leaf word of its reserved field and its symbol: there is no other leaf word. -/
theorem leafWord_reserved_sym {w : NodeWord} (h : tag w = true) : leafWord (reserved w) (sym w) = w := by
  ext i hi
  rw [getElem_leafWord]
  by_cases h8 : i < 8
  · simp [h8, sym, BitVec.getLsbD_eq_getElem hi]
  · by_cases h18 : i < 18
    · have hlow : i - 8 < 10 := by omega
      have hback : 8 + (i - 8) = i := by omega
      simp [h8, h18, reserved, hlow, hback, BitVec.getLsbD_eq_getElem hi]
    · have hi18 : i = 18 := by omega
      subst hi18
      exact h.symm

end Sys2Proof

namespace Sys2Proof.Machine

/-- R110, R131. -/
theorem step_of_rst_false {s : State} (h : s.rst = false) : step s = exec (decode (fetch s)) s :=
  if_neg (by simp [h])

/-- A step ignores the reserved bits `x` because it sees the decoded word alone (R76). -/
theorem step_leafWord {s : State} {x : BitVec 10} {b : Byte} (hr : s.rst = false) (hw : fetch s = leafWord x b) :
    step s = exec (.leaf b) s := by
  rw [step_of_rst_false hr, hw, decode_leafWord]

end Sys2Proof.Machine
end

section
/-! SUPPORT. The obligations of spec/30_encoding.md on the opcode map (R75) and the reserved bits of a leaf word (R76). -/

namespace Sys2Proof

/-- Settles O4: matching a row and decoding to that row's instruction both say what the tag is, and the tag is one of
two. -/
theorem opcodeMapIsComplete : Obligations.OpcodeMapIsComplete := by
  refine ⟨fun w => ?_, fun w => ?_, fun w => ?_⟩
  · exact (and_opcodeMask_eq_zero_iff w).trans (decode_eq_int_iff w).symm
  · exact (and_opcodeMask_eq_leaf_iff w).trans (decode_eq_leaf_iff w).symm
  · rw [and_opcodeMask_eq_zero_iff, and_opcodeMask_eq_leaf_iff]
    exact (Bool.eq_false_or_eq_true (tag w)).symm

/-- Settles O5: the decoder reads the tag and the symbol of a leaf word, and a step runs what the decoder answers. -/
theorem reservedLeafBitsAreIgnored : Obligations.ReservedLeafBitsAreIgnored := by
  refine ⟨fun x b => ?_, fun w hw => ?_, fun s x b => Machine.step_leafWord, reserved_encLEAF⟩
  · rw [decode_leafWord]
    exact ⟨rfl, rfl⟩
  · exact ⟨decode_of_tag_true hw, (leafWord_reserved_sym hw).symm⟩

end Sys2Proof
end

section
/-! SUPPORT. What a node word does in each controller state (spec/41_controller.md R111 to R118): one equation per
state, and per tag in Descending. -/

namespace Sys2Proof.Machine

theorem selectChild_eq (l r : NodeIdx) (b : Bit) : selectChild l r b = if b = false then l else r := by
  cases b <;> rfl

theorem startOrFinish_of_bit {s : State} (h : s.pos < s.bits.length) :
    startOrFinish s = setSt .descending (setCursor Config.root s) := if_pos ((hasNext_iff s).2 h)

theorem startOrFinish_of_empty {s : State} (h : s.bits.length ≤ s.pos) : startOrFinish s = setSt .done s :=
  if_neg (by simp [(hasNext_false_iff s).2 h])

/-- R113: the tested bit is the one `takeBranch` consumes. -/
theorem descendInt_of_bit {l r : NodeIdx} {s : State} {b : Bit} (hb : s.bits[s.pos]? = some b) :
    descendInt l r s = .next { s with pos := s.pos + 1, cursor := selectChild l r b } :=
  (if_pos ((hasNext_iff_some s).2 ⟨b, hb⟩)).trans ((takeBranch_next_iff l r s _).2 ⟨b, hb, rfl⟩)

/-- R114. -/
theorem descendInt_of_empty {l r : NodeIdx} {s : State} (h : s.bits.length ≤ s.pos) :
    descendInt l r s = .next (raiseTruncatedStream s) :=
  if_neg (by simp [(hasNext_false_iff s).2 h])

section ControllerStep

variable {f : State → StepOutcome} {x : Byte} {s : State}

theorem controllerStep_of_atRoot (h : s.st = .atRoot) : controllerStep f x s = .next (startOrFinish s) := by
  simp [controllerStep, h]

theorem controllerStep_of_descending (h : s.st = .descending) : controllerStep f x s = f s := by
  simp [controllerStep, h]

theorem controllerStep_of_emit (h : s.st = .emit) : controllerStep f x s = .next (emitAndRestart x s) := by
  simp [controllerStep, h]

theorem controllerStep_of_terminal (h : s.st = .done ∨ s.st = .fault) : controllerStep f x s = .next s := by
  rcases h with h | h <;> simp [controllerStep, h]

end ControllerStep

/-- Whatever the word, one controller step runs: the word enters by what it does in Descending and by its `sym`
field. -/
theorem exec_eq_controllerStep (i : Instr) :
    ∃ (f : State → StepOutcome) (x : Byte), ∀ s, exec i s = controllerStep f x s := by
  cases i with
  | int l r => exact ⟨descendInt l r, symOfInt l r, fun _ => rfl⟩
  | leaf x => exact ⟨recogniseLeaf, symOfLeaf x, fun _ => rfl⟩

/-- R111, R112: the word is not used. -/
theorem exec_of_atRoot (i : Instr) {s : State} (h : s.st = .atRoot) : exec i s = .next (startOrFinish s) := by
  obtain ⟨f, x, hi⟩ := exec_eq_controllerStep i
  rw [hi, controllerStep_of_atRoot h]

/-- R117, R118: the word is not used. -/
theorem exec_of_terminal (i : Instr) {s : State} (h : s.st = .done ∨ s.st = .fault) : exec i s = .next s := by
  obtain ⟨f, x, hi⟩ := exec_eq_controllerStep i
  rw [hi, controllerStep_of_terminal h]

/-- R101: in Descending an internal node branches or takes the exception. -/
theorem exec_int_of_descending (l r : NodeIdx) {s : State} (h : s.st = .descending) :
    exec (.int l r) s = descendInt l r s :=
  controllerStep_of_descending (x := symOfInt l r) h

/-- R115. -/
theorem exec_leaf_of_descending (x : Byte) {s : State} (h : s.st = .descending) :
    exec (.leaf x) s = .next (setSt .emit s) :=
  controllerStep_of_descending (f := recogniseLeaf) (x := symOfLeaf x) h

theorem exec_leaf_of_emit (x : Byte) {s : State} (h : s.st = .emit) :
    exec (.leaf x) s = .next (emitAndRestart x s) :=
  controllerStep_of_emit (f := recogniseLeaf) (x := symOfLeaf x) h

/-- R116: Emit does not test the tag; an `INT` word's symbol is the low part of its `right` field. -/
theorem exec_decode_of_emit (w : NodeWord) {s : State} (h : s.st = .emit) :
    exec (decode w) s = .next (emitAndRestart (sym w) s) := by
  cases hw : tag w with
  | true => rw [decode_of_tag_true hw, exec_leaf_of_emit (sym w) h]
  | false =>
    rw [decode_of_tag_false hw, sym_eq_symOfInt]
    exact controllerStep_of_emit (f := descendInt (left w) (right w)) h

end Sys2Proof.Machine
end

section
/-! SUPPORT. The step out of each controller state with reset released (spec/41_controller.md R111 to R118), and what
these steps make of a run. -/

namespace Sys2Proof.Machine

variable {s t : State}

theorem step_of_atRoot (hr : s.rst = false) (hs : s.st = .atRoot) : step s = .next (startOrFinish s) :=
  (step_of_rst_false hr).trans (exec_of_atRoot _ hs)

/-- R112. -/
theorem step_start (hr : s.rst = false) (hs : s.st = .atRoot) (hn : s.pos < s.bits.length) :
    step s = .next (setSt .descending (setCursor Config.root s)) := by
  rw [step_of_atRoot hr hs, startOrFinish_of_bit hn]

theorem step_int_of_descending (hr : s.rst = false) (hs : s.st = .descending) (hw : tag (fetch s) = false) :
    step s = descendInt (left (fetch s)) (right (fetch s)) s := by
  rw [step_of_rst_false hr, decode_of_tag_false hw, exec_int_of_descending _ _ hs]

/-- R113. -/
theorem step_branch {b : Bit} (hr : s.rst = false) (hs : s.st = .descending) (hw : tag (fetch s) = false)
    (hb : s.bits[s.pos]? = some b) :
    step s = .next { s with pos := s.pos + 1, cursor := child (fetch s) b } :=
  (step_int_of_descending hr hs hw).trans (descendInt_of_bit hb)

/-- R114. -/
theorem step_truncate (hr : s.rst = false) (hs : s.st = .descending) (hw : tag (fetch s) = false)
    (hn : s.bits.length ≤ s.pos) : step s = .next (raiseTruncatedStream s) :=
  (step_int_of_descending hr hs hw).trans (descendInt_of_empty hn)

/-- R115. -/
theorem step_recognise (hr : s.rst = false) (hs : s.st = .descending) (hw : tag (fetch s) = true) :
    step s = .next (setSt .emit s) := by
  rw [step_of_rst_false hr, decode_of_tag_true hw, exec_leaf_of_descending _ hs]

/-- R116. -/
theorem step_emit (hr : s.rst = false) (hs : s.st = .emit) : step s = .next (emitAndRestart (sym (fetch s)) s) :=
  (step_of_rst_false hr).trans (exec_decode_of_emit _ hs)

/-- R117, R118. -/
theorem step_of_terminal (hr : s.rst = false) (hs : s.st = .done ∨ s.st = .fault) : step s = .next s :=
  (step_of_rst_false hr).trans (exec_of_terminal _ hs)

/-- A run begins with its first step. -/
theorem runSteps_succ (k : Nat) (h : step s = .next t) : runSteps (k + 1) s = runSteps k t := by
  rw [runSteps, h]

theorem runSteps_of_step_self (k : Nat) (h : step s = .next s) : runSteps k s = .next s := by
  induction k with
  | zero => rfl
  | succ k ih => rw [runSteps_succ k h, ih]

theorem runSteps_of_terminal (k : Nat) (hr : s.rst = false) (hs : s.st = .done ∨ s.st = .fault) :
    runSteps k s = .next s :=
  runSteps_of_step_self k (step_of_terminal hr hs)

end Sys2Proof.Machine
end

section
/-! SUPPORT. A leaf at the root and a bit left (spec/41_controller.md R123): a symbol is started, recognised and emitted
in three steps without a bit being read, and so again and again. -/

namespace Sys2Proof.Machine

section RootLeaf

variable {s : State} (hr : s.rst = false) (hs : s.st = .atRoot) (hn : s.pos < s.bits.length)
  (hw : tag (NodeMem.read s.nodes Config.root) = true)

include hr hs hn hw

theorem runSteps_two_of_root_leaf : runSteps 2 s = .next (setSt .emit (setCursor Config.root s)) := by
  have recognised :
      step (setSt .descending (setCursor Config.root s)) = .next (setSt .emit (setCursor Config.root s)) :=
    step_recognise hr rfl hw
  rw [runSteps_succ 1 (step_start hr hs hn), runSteps_succ 0 recognised, runSteps]

theorem runSteps_three_of_root_leaf :
    runSteps 3 s = .next (emitAndRestart (sym (NodeMem.read s.nodes Config.root)) s) := by
  have emitted : step (setSt .emit (setCursor Config.root s)) =
      .next (emitAndRestart (sym (NodeMem.read s.nodes Config.root)) s) := step_emit hr rfl
  rw [runSteps_add 2 1 (runSteps_two_of_root_leaf hr hs hn hw), runSteps_succ 0 emitted, runSteps]

/-- Before the third step nothing but `st` and `cursor` is written, and `st` is not Done or Fault. -/
theorem runSteps_lt_three_of_root_leaf {j : Nat} (hj : j < 3) :
    ∃ (x : St) (c : NodeIdx), x ≠ .done ∧ x ≠ .fault ∧ runSteps j s = .next (setSt x (setCursor c s)) := by
  match j with
  | 0 => exact ⟨s.st, s.cursor, by simp [hs], by simp [hs], rfl⟩
  | 1 => exact ⟨.descending, Config.root, by decide, by decide, runSteps_succ 0 (step_start hr hs hn)⟩
  | 2 => exact ⟨.emit, Config.root, by decide, by decide, runSteps_two_of_root_leaf hr hs hn hw⟩

end RootLeaf

/-- The initial configuration with `k` copies of the root's symbol in `out` (R123). -/
def State.launchEmitted (m : NodeMem) (bits : List Bit) (k : Nat) : State :=
  { State.launch m bits with out := List.replicate k (sym (NodeMem.read m Config.root)) }

theorem emitAndRestart_launchEmitted (m : NodeMem) (bits : List Bit) (k : Nat) :
    emitAndRestart (sym (NodeMem.read m Config.root)) (State.launchEmitted m bits k) =
      State.launchEmitted m bits (k + 1) := by
  rw [State.launchEmitted, State.launchEmitted, List.replicate_succ']
  rfl

/-- `k` rounds of three steps, each emitting the root's symbol. -/
theorem runSteps_launch_of_root_leaf {m : NodeMem} {bits : List Bit} (hw : tag (NodeMem.read m Config.root) = true)
    (hn : 0 < bits.length) (k : Nat) :
    runSteps (3 * k) (State.launch m bits) = .next (State.launchEmitted m bits k) := by
  induction k with
  | zero => rfl
  | succ k ih =>
    have round := runSteps_three_of_root_leaf (s := State.launchEmitted m bits k) rfl rfl hn hw
    rw [Nat.mul_succ, runSteps_add (3 * k) 3 ih]
    exact round.trans (congrArg _ (emitAndRestart_launchEmitted m bits k))

end Sys2Proof.Machine
end

section
/-! SUPPORT. The obligations of spec/41_controller.md on the transitions R111 to R118 and the single-leaf run (R123). -/

namespace Sys2Proof

open Machine

/-- Settles O30: after `n` steps `n / 3` rounds of three steps are complete, and the `n % 3` steps since wrote `st` and
`cursor` alone. -/
theorem singleLeafRunNeverEnds : Obligations.SingleLeafRunNeverEnds := by
  intro m bits hw hb
  have unread : 0 < bits.length := List.length_pos_of_ne_nil hb
  have rounds := runSteps_launch_of_root_leaf hw unread
  refine ⟨rounds, fun n t hrun => ?_⟩
  obtain ⟨x, c, hdone, hfault, hlast⟩ :=
    runSteps_lt_three_of_root_leaf (s := State.launchEmitted m bits (n / 3)) rfl rfl unread hw
      (Nat.mod_lt n (by decide))
  rw [← Nat.div_add_mod n 3, runSteps_add _ _ (rounds (n / 3)), hlast] at hrun
  injection hrun with ht
  subst ht
  exact ⟨rfl, (hasNext_iff _).2 unread, hdone, hfault, List.length_replicate⟩

/-- Settles O8: AtRoot does not use the word. -/
theorem atRootFinishesOnEmptyStream : Obligations.AtRootFinishesOnEmptyStream := by
  intro i s hs hn
  rw [exec_of_atRoot i hs, startOrFinish_of_empty hn]
  rfl

/-- Settles O9: AtRoot does not use the word. -/
theorem atRootStartsSymbol : Obligations.AtRootStartsSymbol := by
  intro i s hs hn
  rw [exec_of_atRoot i hs, startOrFinish_of_bit hn]
  rfl

/-- Settles O10: the bit under `pos` is consumed and selects the child. -/
theorem intTakesBranch : Obligations.IntTakesBranch := by
  refine ⟨fun l r s b hs hb => ?_, fun s b hr hs hw hb => ?_⟩
  · rw [exec_int_of_descending l r hs, descendInt_of_bit hb, selectChild_eq]
  · rw [step_branch hr hs hw hb, child, selectChild_eq]

/-- Settles O11: with no bit under `pos` an internal node takes the exception. -/
theorem intTruncatesOnEmptyStream : Obligations.IntTruncatesOnEmptyStream := by
  refine ⟨fun l r s hs hn => ?_, fun s => step_truncate⟩
  rw [exec_int_of_descending l r hs, descendInt_of_empty hn]
  rfl

/-- Settles O12: no rule of a leaf in Descending looks at the stream. -/
theorem leafIsRecognised : Obligations.LeafIsRecognised :=
  ⟨fun x _ => exec_leaf_of_descending x, fun _ => step_recognise⟩

/-- Settles O13: Emit takes the symbol field of the word without testing its tag. -/
theorem emitOutputsSymbolAndRestarts : Obligations.EmitOutputsSymbolAndRestarts :=
  ⟨fun x _ => exec_leaf_of_emit x, fun w _ => exec_decode_of_emit w, fun _ => step_emit⟩

/-- Settles O14: Done is terminal. -/
theorem doneIsAbsorbing : Obligations.DoneIsAbsorbing :=
  ⟨fun i _ hs => exec_of_terminal i (.inl hs), fun k _ hs hr => runSteps_of_terminal k hr (.inl hs)⟩

/-- Settles O15: Fault is terminal. -/
theorem faultIsAbsorbing : Obligations.FaultIsAbsorbing :=
  ⟨fun i _ hs => exec_of_terminal i (.inr hs), fun k _ hs hr => runSteps_of_terminal k hr (.inr hs)⟩

end Sys2Proof
end

section
/-! SUPPORT. The clock edge under reset (spec/70_reset_and_hazards.md R170, R171): its effect, and why a second edge
changes nothing. -/

namespace Sys2Proof.Machine

/-- R170: no step of the controller is taken. -/
theorem step_of_rst_true {s : State} (h : s.rst = true) : step s = .next (resetBlock s) := if_pos h

@[simp] theorem resetBlock_idem (s : State) : resetBlock (resetBlock s) = resetBlock s := rfl

/-- R170: a further edge "repeats the same writes", since the level of `rst` is not the block's to change. -/
theorem step_resetBlock {s : State} (h : s.rst = true) : step (resetBlock s) = .next (resetBlock s) := by
  rw [step_of_rst_true ((resetBlock_rst s).trans h), resetBlock_idem]

/-- Any positive number of edges under reset has the effect of one. -/
theorem runSteps_of_rst_true (k : Nat) {s : State} (h : s.rst = true) :
    runSteps (k + 1) s = .next (resetBlock s) := by
  rw [runSteps_succ k (step_of_rst_true h), runSteps_of_step_self k (step_resetBlock h)]

end Sys2Proof.Machine

namespace Sys2Proof

open Machine

/-- Settles O17: the first edge resets the block, and the reset block is a fixed point of the edges after it. -/
theorem resetEdgeWritesRegistersOnly : Obligations.ResetEdgeWritesRegistersOnly :=
  fun k _ hr => ⟨step_of_rst_true hr, runSteps_of_rst_true k hr⟩

end Sys2Proof
end

section
/-! SUPPORT. Encoding and decoding undo each other (spec/30_encoding.md R78), and a listing line assembles to the one
instruction it lists (R71, R73, R79). -/

namespace Sys2Proof

theorem decode_encode (i : Instr) : decode (encode i) = i := by
  cases i with
  | int l r => rw [encode, decode_of_tag_false (tag_encINT l r), left_encINT, right_encINT]
  | leaf s => rw [encode, decode_of_tag_true (tag_encLEAF s), sym_encLEAF]

/-- An `INT` word is put together from its two fields, the tag being 0. -/
theorem encINT_left_right {w : NodeWord} (h : tag w = false) : encINT (left w) (right w) = w := by
  have hw : w.toNat < 2 ^ 18 := BitVec.toNat_lt_of_msb_false (w := 19) h
  have hleft : (left w).toNat = w.toNat / 512 % 512 := by
    simp [left, Nat.shiftRight_eq_div_pow]
  have hright : (right w).toNat = w.toNat % 512 := by simp [right]
  apply BitVec.eq_of_toNat_eq
  rw [toNat_encINT, hleft, hright]
  omega

/-- The encoder writes zero reserved bits, so it gives back the leaf words that have them (R73, R76). -/
theorem encLEAF_sym_iff {w : NodeWord} (h : tag w = true) : encLEAF (sym w) = w ↔ reserved w = 0#10 := by
  constructor
  · intro hw
    rw [← hw, reserved_encLEAF]
  · intro hw
    rw [← leafWord_zero, ← hw, leafWord_reserved_sym h]

theorem Listing.wellFormed_int_iff (l r : Nat) : (Listing.int l r).wellFormed = true ↔ l < 512 ∧ r < 512 := by
  rw [Listing.wellFormed, Bool.and_eq_true, decide_eq_true_eq, decide_eq_true_eq]
  rfl

theorem Listing.wellFormed_leaf_iff (s : Nat) : (Listing.leaf s).wellFormed = true ↔ s < 256 :=
  decide_eq_true_iff

/-- The operand fields of an instruction carry the bounds of its listing line. -/
theorem Instr.wellFormed_listing (i : Instr) : i.listing.wellFormed = true := by
  cases i with
  | int l r => exact (Listing.wellFormed_int_iff _ _).2 ⟨l.isLt, r.isLt⟩
  | leaf s => exact (Listing.wellFormed_leaf_iff _).2 s.isLt

theorem Listing.assemble_of_wellFormed {x : Listing} (h : x.wellFormed = true) :
    ∃ i, x.assemble = some i ∧ i.listing = x := by
  cases x with
  | int l r =>
    obtain ⟨hl, hr⟩ := (wellFormed_int_iff l r).1 h
    refine ⟨_, if_pos h, ?_⟩
    simp [Instr.listing, Nat.mod_eq_of_lt hl, Nat.mod_eq_of_lt hr]
  | leaf s =>
    refine ⟨_, if_pos h, ?_⟩
    simp [Instr.listing, Nat.mod_eq_of_lt ((wellFormed_leaf_iff s).1 h)]

theorem Listing.wellFormed_of_assemble {x : Listing} {i : Instr} (h : x.assemble = some i) : x.wellFormed = true := by
  by_contra hx
  unfold assemble at h
  simp [hx] at h

theorem Instr.listing_injective : Function.Injective Instr.listing := by
  intro i j h
  match i, j, h with
  | .int l r, .int l' r', h =>
    obtain ⟨hl, hr⟩ := Listing.int.inj h
    rw [BitVec.eq_of_toNat_eq hl, BitVec.eq_of_toNat_eq hr]
  | .leaf s, .leaf s', h => rw [BitVec.eq_of_toNat_eq (Listing.leaf.inj h)]

/-- A line assembles exactly in its bounds, to the instruction it lists (R78). -/
theorem Listing.assemble_eq_some_iff (x : Listing) (i : Instr) :
    x.assemble = some i ↔ x.wellFormed = true ∧ i.listing = x := by
  constructor
  · intro h
    obtain ⟨j, hj, hx⟩ := assemble_of_wellFormed (wellFormed_of_assemble h)
    rw [h] at hj
    injection hj with hj
    exact ⟨wellFormed_of_assemble h, hj ▸ hx⟩
  · rintro ⟨hx, hi⟩
    obtain ⟨j, hj, hxj⟩ := assemble_of_wellFormed hx
    rw [hj, Instr.listing_injective (hi.trans hxj.symm)]

/-- Settles O2: the fields of an encoded word are the operands, and an instruction's listing line is in its bounds. -/
theorem decodeOfEncodeIsIdentity : Obligations.DecodeOfEncodeIsIdentity := fun i =>
  ⟨i.wellFormed_listing, decode_encode i, (Listing.assemble_eq_some_iff _ i).2 ⟨i.wellFormed_listing, rfl⟩⟩

/-- Settles O3: a word is the encoding of its fields, the reserved bits of a leaf word apart. -/
theorem encodeOfDecodeKeepsCanonicalWords : Obligations.EncodeOfDecodeKeepsCanonicalWords := by
  refine ⟨fun w hw => ?_, fun w hw => ?_⟩
  · rw [decode_of_tag_false hw]
    exact encINT_left_right hw
  · rw [decode_of_tag_true hw]
    exact encLEAF_sym_iff hw

/-- Settles O6. -/
theorem listingAssemblesWithinBounds : Obligations.ListingAssemblesWithinBounds :=
  Listing.assemble_eq_some_iff

/-- Settles O1: each literal is split into its fields by evaluation. -/
theorem specWordsDecode : Obligations.SpecWordsDecode := by
  unfold Obligations.SpecWordsDecode
  decide

end Sys2Proof
end

section
/-! SUPPORT. The invariants of spec/10_state.md R29: they hold at the start of a run and every clock edge keeps them. -/

namespace Sys2Proof.Machine

/-- Outside Done and Fault the invariant asks for a clear error register, and for the cursor at a symbol boundary and
in Emit. -/
theorem inv_of_running {t : State} (hroot : t.st = .atRoot → t.cursor = Config.root)
    (hemit : t.st = .emit → tag (fetch t) = true) (hdone : t.st ≠ .done) (hfault : t.st ≠ .fault)
    (herr : t.err = .none) (hpos : t.pos ≤ t.bits.length) (hwf : NodeMem.wf t.nodes = true) : Inv t where
  atRoot_cursor := hroot
  done_final := fun h => absurd h hdone
  emit_leaf := hemit
  fault_final := fun h => absurd h hfault
  err_iff_fault := by simp [herr, hfault]
  pos_le := hpos
  nodes_wf := hwf

theorem Inv.err_none {s : State} (h : Inv s) (hs : s.st ≠ .fault) : s.err = .none := by
  cases he : s.err with
  | none => rfl
  | truncated => exact absurd (h.err_iff_fault.1 he) hs

theorem Inv.resetBlock {s : State} (h : Inv s) : Inv (resetBlock s) :=
  inv_of_running (fun _ => rfl) (by simp) (by simp) (by simp) rfl h.pos_le h.nodes_wf

theorem Inv.finish {s : State} (h : Inv s) (hs : s.st = .atRoot) (hn : s.bits.length ≤ s.pos) :
    Inv (setSt .done s) where
  atRoot_cursor := by simp
  done_final := fun _ => ⟨h.atRoot_cursor hs, h.err_none (by simp [hs]), Nat.le_antisymm h.pos_le hn⟩
  emit_leaf := by simp
  fault_final := by simp
  err_iff_fault := by simp [h.err_none (by simp [hs])]
  pos_le := h.pos_le
  nodes_wf := h.nodes_wf

theorem Inv.truncate {s : State} (h : Inv s) (hw : tag (fetch s) = false) (hn : s.bits.length ≤ s.pos) :
    Inv (raiseTruncatedStream s) where
  atRoot_cursor := by simp
  done_final := by simp
  emit_leaf := by simp
  fault_final := fun _ => ⟨rfl, hw, Nat.le_antisymm h.pos_le hn⟩
  err_iff_fault := by simp
  pos_le := h.pos_le
  nodes_wf := h.nodes_wf

/-- R29: whatever the edge does, what the invariant says of the state it reaches follows from the case alone, and for
`err`, `pos` and node memory from the invariant before. -/
theorem Inv.step {s t : State} (h : Inv s) (hst : step s = .next t) : Inv t := by
  cases step_cases hst with
  | reset hr ht => exact ht ▸ h.resetBlock
  | finish hr hs hn ht => exact ht ▸ h.finish hs hn
  | start hr hs hn ht =>
    subst ht
    exact inv_of_running (by simp) (by simp) (by simp) (by simp) (h.err_none (by simp [hs])) h.pos_le h.nodes_wf
  | branch hr hs hw b hb ht =>
    subst ht
    have unread : s.pos < s.bits.length := (List.getElem?_eq_some_iff.1 hb).1
    exact inv_of_running (by simp [hs]) (by simp [hs]) (by simp [hs]) (by simp [hs]) (h.err_none (by simp [hs]))
      unread h.nodes_wf
  | truncate hr hs hw hn ht => exact ht ▸ h.truncate hw hn
  | recognise hr hs hw ht =>
    subst ht
    exact inv_of_running (by simp) (fun _ => hw) (by simp) (by simp) (h.err_none (by simp [hs])) h.pos_le h.nodes_wf
  | emit hr hs ht =>
    subst ht
    exact inv_of_running (fun _ => rfl) (by simp) (by simp) (by simp) (h.err_none (by simp [hs])) h.pos_le h.nodes_wf
  | stay hr hs ht => exact ht ▸ h

theorem inv_launch {m : NodeMem} {bits : List Bit} (hwf : NodeMem.wf m = true) : Inv (State.launch m bits) :=
  inv_of_running (fun _ => rfl) (by simp) (by simp) (by simp) rfl (Nat.zero_le _) hwf

end Sys2Proof.Machine

namespace Sys2Proof

open Machine

/-- Settles O27, by the cases of one clock edge. -/
theorem everyStepKeepsInvariant : Obligations.EveryStepKeepsInvariant := fun _ _ => Inv.step

/-- Settles O26: `State.reset` is the start of a run over the erased memory and the empty stream. -/
theorem invariantHoldsAtLaunch : Obligations.InvariantHoldsAtLaunch :=
  ⟨inv_launch (bits := []) wf_reset, fun _ _ => inv_launch⟩

end Sys2Proof
end

section
/-! SUPPORT. Every state has a successor (spec/41_controller.md R119), and what any step leaves unchanged
(spec/20_memory.md R53). -/

namespace Sys2Proof.Machine

/-- R47. -/
theorem bitRead_of_bit {s : State} (h : s.pos < s.bits.length) :
    bitRead s = .next (s.bits[s.pos], { s with pos := s.pos + 1 }) :=
  (bitRead_next_iff s _ _).2 ⟨List.getElem?_eq_getElem h, rfl⟩

/-- R47: the interface's failing case. -/
theorem bitRead_of_empty {s : State} (h : s.bits.length ≤ s.pos) : bitRead s = .fault .bitSourceEmpty := by
  simp [bitRead, h]

/-- R119 in Descending: the tag and the test of the stream leave no other case. -/
theorem exists_step_of_descending {s : State} (hr : s.rst = false) (hs : s.st = .descending) :
    ∃ t, step s = .next t := by
  cases hw : tag (fetch s) with
  | true => exact ⟨_, step_recognise hr hs hw⟩
  | false =>
    rcases Nat.lt_or_ge s.pos s.bits.length with hn | hn
    · exact ⟨_, step_branch hr hs hw (List.getElem?_eq_getElem hn)⟩
    · exact ⟨_, step_truncate hr hs hw hn⟩

/-- R119. -/
theorem exists_step (s : State) : ∃ t, step s = .next t := by
  cases hr : s.rst with
  | true => exact ⟨_, step_of_rst_true hr⟩
  | false =>
    cases hs : s.st with
    | atRoot => exact ⟨_, step_of_atRoot hr hs⟩
    | descending => exact exists_step_of_descending hr hs
    | emit => exact ⟨_, step_emit hr hs⟩
    | done => exact ⟨_, step_of_terminal hr (.inl hs)⟩
    | fault => exact ⟨_, step_of_terminal hr (.inr hs)⟩

theorem exists_runSteps (k : Nat) (s : State) : ∃ t, runSteps k s = .next t := by
  induction k generalizing s with
  | zero => exact ⟨s, rfl⟩
  | succ k ih =>
    obtain ⟨u, hu⟩ := exists_step s
    rw [runSteps_succ k hu]
    exact ih u

/-- What a step of the controller does to the streams (R53): nothing, one bit read, or one byte emitted. -/
def StreamEffect (s t : State) : Prop :=
  (t.pos = s.pos ∧ t.out = s.out) ∨
  (s.st = .descending ∧ s.pos < s.bits.length ∧ t.pos = s.pos + 1 ∧ t.out = s.out) ∨
  (s.st = .emit ∧ t.pos = s.pos ∧ ∃ b : Byte, t.out = s.out ++ [b])

/-- The frame of a step of the controller. -/
structure ControllerFrame (s t : State) : Prop where
  rst : t.rst = s.rst
  bits : t.bits = s.bits
  nodes : t.nodes = s.nodes
  streams : StreamEffect s t
  err : t.err = s.err ∨ (s.st = .descending ∧ t.st = .fault ∧ t.err = .truncated)

/-- A move of the registers `st` and `cursor` alone is in the frame. -/
theorem ControllerFrame.registers (x : St) (c : NodeIdx) (s : State) : ControllerFrame s (setSt x (setCursor c s)) :=
  ⟨rfl, rfl, rfl, .inl ⟨rfl, rfl⟩, .inl rfl⟩

theorem controllerFrame_startOrFinish (s : State) : ControllerFrame s (startOrFinish s) := by
  rcases startOrFinish_cases s with ⟨-, h⟩ | ⟨-, h⟩
  · exact h ▸ .registers .descending Config.root s
  · exact h ▸ .registers .done s.cursor s

theorem controllerFrame_emitAndRestart (x : Byte) {s : State} (hs : s.st = .emit) :
    ControllerFrame s (emitAndRestart x s) :=
  ⟨rfl, rfl, rfl, .inr (.inr ⟨hs, rfl, x, rfl⟩), .inl rfl⟩

theorem controllerFrame_descendInt {l r : NodeIdx} {s t : State} (hs : s.st = .descending)
    (h : descendInt l r s = .next t) : ControllerFrame s t := by
  rcases descendInt_next h with ⟨b, hb, rfl⟩ | ⟨-, rfl⟩
  · have unread : s.pos < s.bits.length := (List.getElem?_eq_some_iff.1 hb).1
    exact ⟨rfl, rfl, rfl, .inr (.inl ⟨hs, unread, rfl, rfl⟩), .inl rfl⟩
  · exact ⟨rfl, rfl, rfl, .inl ⟨rfl, rfl⟩, .inr ⟨hs, rfl, rfl⟩⟩

/-- The frame needs a look at the word in Descending alone. -/
theorem controllerFrame_of_controllerStep {f : State → StepOutcome} {x : Byte} {s t : State}
    (hf : s.st = .descending → f s = .next t → ControllerFrame s t) (h : controllerStep f x s = .next t) :
    ControllerFrame s t := by
  rcases controllerStep_next h with ⟨-, rfl⟩ | ⟨hs, ht⟩ | ⟨hs, rfl⟩ | ⟨-, rfl⟩ | ⟨-, rfl⟩
  · exact controllerFrame_startOrFinish s
  · exact hf hs ht
  · exact controllerFrame_emitAndRestart x hs
  · exact .registers t.st t.cursor t
  · exact .registers t.st t.cursor t

theorem controllerFrame_of_exec {i : Instr} {s t : State} (h : exec i s = .next t) : ControllerFrame s t := by
  cases i with
  | int l r => exact controllerFrame_of_controllerStep controllerFrame_descendInt h
  | leaf x =>
    refine controllerFrame_of_controllerStep (fun _ hf => ?_) h
    injection hf with ht
    exact ht ▸ .registers .emit s.cursor s

/-- The frame of a clock edge, reset included: the reset input and the parameters of the run are kept, and the streams
only grow (R29 item 6). -/
structure EdgeFrame (s t : State) : Prop where
  rst : t.rst = s.rst
  bits : t.bits = s.bits
  nodes : t.nodes = s.nodes
  pos_le : s.pos ≤ t.pos
  out_prefix : s.out <+: t.out

theorem StreamEffect.grow {s t : State} (h : StreamEffect s t) : s.pos ≤ t.pos ∧ s.out <+: t.out := by
  rcases h with ⟨hp, ho⟩ | ⟨-, -, hp, ho⟩ | ⟨-, hp, b, ho⟩
  · exact ⟨hp.ge, ho ▸ List.prefix_rfl⟩
  · exact ⟨by omega, ho ▸ List.prefix_rfl⟩
  · exact ⟨hp.ge, ho ▸ List.prefix_append _ _⟩

theorem edgeFrame_of_step {s t : State} (h : step s = .next t) : EdgeFrame s t := by
  cases hr : s.rst with
  | true =>
    rw [step_of_rst_true hr] at h
    injection h with ht
    exact ht ▸ ⟨rfl, rfl, rfl, Nat.le_refl _, List.prefix_rfl⟩
  | false =>
    rw [step_of_rst_false hr] at h
    have frame := controllerFrame_of_exec h
    exact ⟨frame.rst, frame.bits, frame.nodes, frame.streams.grow.1, frame.streams.grow.2⟩

theorem EdgeFrame.refl (s : State) : EdgeFrame s s := ⟨rfl, rfl, rfl, Nat.le_refl _, List.prefix_rfl⟩

theorem EdgeFrame.trans {s t u : State} (h : EdgeFrame s t) (h' : EdgeFrame t u) : EdgeFrame s u :=
  ⟨h'.rst.trans h.rst, h'.bits.trans h.bits, h'.nodes.trans h.nodes, h.pos_le.trans h'.pos_le,
    h.out_prefix.trans h'.out_prefix⟩

theorem edgeFrame_of_runSteps {k : Nat} {s t : State} (h : runSteps k s = .next t) : EdgeFrame s t :=
  runSteps_induction (P := EdgeFrame s) (fun _ _ hu hst => hu.trans (edgeFrame_of_step hst)) k (.refl s) h

end Sys2Proof.Machine
end

section
/-! SUPPORT. The obligations on one step: totality, frames, and who writes the registers (spec/10_state.md R22, R23,
R29; spec/20_memory.md R46, R47, R53). -/

namespace Sys2Proof

open Machine

/-- Settles O7. -/
theorem stepRunsWordUnderCursor : Obligations.StepRunsWordUnderCursor := fun _ => step_of_rst_false

/-- Settles O18: the values are those `State.reset` writes, and a launch changes none of its registers. -/
theorem resetAndLaunchValues : Obligations.ResetAndLaunchValues :=
  ⟨rfl, rfl, rfl, rfl, rfl, fun m bits =>
    ⟨launch_st m bits, launch_cursor m bits, launch_err m bits, launch_pos m bits, launch_out m bits,
      launch_nodes m bits, launch_bits m bits, launch_rst m bits⟩⟩

/-- Settles O20. -/
theorem bitReadTakesNextBit : Obligations.BitReadTakesNextBit :=
  ⟨fun _ => bitRead_of_bit, fun _ => bitRead_of_empty⟩

/-- Settles O19: a step tests the stream before it reads, so it has a successor where the source itself would fail. -/
theorem everyStateHasSuccessor : Obligations.EveryStateHasSuccessor :=
  ⟨exists_step, exists_runSteps, fun _ => bitRead_of_empty⟩

/-- Settles O16: with reset released Done and Fault repeat themselves. -/
theorem onlyResetLeavesTerminalStates : Obligations.OnlyResetLeavesTerminalStates := by
  intro s t h hs hne
  cases hr : s.rst with
  | true =>
    rw [step_of_rst_true hr] at h
    injection h with ht
    exact ⟨rfl, ht ▸ rfl⟩
  | false =>
    rw [step_of_terminal hr hs] at h
    injection h with ht
    exact absurd (ht ▸ rfl) hne

/-- Settles O21: the stream is kept and `pos` never goes back. -/
theorem emptySourceStaysEmpty : Obligations.EmptySourceStaysEmpty := by
  refine ⟨hasNext_iff, fun k s t hn h => ?_⟩
  have frame := edgeFrame_of_runSteps h
  rw [hasNext_false_iff] at hn ⊢
  rw [frame.bits]
  exact hn.trans frame.pos_le

/-- Settles O22: no node word stores anything, so node memory is kept as a whole. -/
theorem execFrame : Obligations.ExecFrame := by
  intro i s t h
  have frame := controllerFrame_of_exec h
  exact ⟨frame.rst, frame.bits, frame.nodes, fun a => congrArg _ frame.nodes, frame.streams, frame.err⟩

/-- Settles O23, by the cases of one clock edge. -/
theorem cursorMovesOnlyThreeWays : Obligations.CursorMovesOnlyThreeWays := by
  intro s t h
  cases step_cases h with
  | reset hr ht => exact ht ▸ .inr (.inl ⟨rfl, .inl hr⟩)
  | finish hr hs hn ht => exact ht ▸ .inl rfl
  | start hr hs hn ht => exact ht ▸ .inr (.inl ⟨rfl, .inr (.inl ⟨hs, hn, rfl⟩)⟩)
  | branch hr hs hw b hb ht =>
    exact ht ▸ .inr (.inr ⟨hr, hs, hw, rfl, b, hb, selectChild_eq _ _ b⟩)
  | truncate hr hs hw hn ht => exact ht ▸ .inl rfl
  | recognise hr hs hw ht => exact ht ▸ .inl rfl
  | emit hr hs ht => exact ht ▸ .inr (.inl ⟨rfl, .inr (.inr ⟨hs, rfl⟩)⟩)
  | stay hr hs ht => exact ht ▸ .inl rfl

/-- The two writers of `err` (R23). -/
theorem err_change_of_step {s t : State} (h : step s = .next t) (hne : t.err ≠ s.err) :
    (s.rst = true ∧ t.err = .none) ∨
    (s.rst = false ∧ s.st = .descending ∧ tag (NodeMem.read s.nodes s.cursor) = false ∧
      s.bits.length ≤ s.pos ∧ t.st = .fault ∧ t.err = .truncated) := by
  cases step_cases h with
  | reset hr ht => exact ht ▸ .inl ⟨hr, rfl⟩
  | truncate hr hs hw hn ht => exact ht ▸ .inr ⟨hr, hs, hw, hn, rfl, rfl⟩
  | finish hr hs hn ht => exact absurd (ht ▸ rfl) hne
  | start hr hs hn ht => exact absurd (ht ▸ rfl) hne
  | branch hr hs hw b hb ht => exact absurd (ht ▸ rfl) hne
  | recognise hr hs hw ht => exact absurd (ht ▸ rfl) hne
  | emit hr hs ht => exact absurd (ht ▸ rfl) hne
  | stay hr hs ht => exact absurd (ht ▸ rfl) hne

/-- Settles O24: a change away from ERR_TRUNCATED is not the truncation's. -/
theorem errWrittenByTruncationAndResetOnly : Obligations.ErrWrittenByTruncationAndResetOnly := by
  refine fun s t h => ⟨err_change_of_step h, fun hs ht => ?_⟩
  rcases err_change_of_step h (hs ▸ ht) with ⟨hr, -⟩ | ⟨-, -, -, -, -, he⟩
  · exact hr
  · exact absurd he ht

/-- Settles O25. -/
theorem streamsOnlyGrow : Obligations.StreamsOnlyGrow := fun _ _ _ h =>
  ⟨(edgeFrame_of_runSteps h).pos_le, (edgeFrame_of_runSteps h).out_prefix⟩

end Sys2Proof
end

section
/-! SUPPORT. The pins in one cycle (spec/42_ports.md R132 to R139): when a strobe is 1, and that block and environment
together make the step (R143). -/

namespace Sys2Proof.Machine

variable {s t : State}

@[simp] theorem pinsOf_nmAddr (s : State) : (pinsOf s).nmAddr = s.cursor := rfl
@[simp] theorem pinsOf_outByte (s : State) : (pinsOf s).outByte = sym (fetch s) := rfl
@[simp] theorem pinsOf_err (s : State) : (pinsOf s).err = s.err.code := rfl

/-- R136. -/
theorem bsRead_iff (s : State) : (pinsOf s).bsRead = true ↔
    s.rst = false ∧ s.st = .descending ∧ tag (fetch s) = false ∧ s.pos < s.bits.length := by
  show (!s.rst && decide (s.st = .descending) && !(tag (fetch s)) && hasNext s) = true ↔ _
  simp [hasNext_iff, and_assoc]

/-- R137. -/
theorem outValid_iff (s : State) : (pinsOf s).outValid = true ↔ s.rst = false ∧ s.st = .emit := by
  show (!s.rst && decide (s.st = .emit)) = true ↔ _
  simp

theorem outValid_eq_false_of_st_ne (h : s.st ≠ .emit) : (pinsOf s).outValid = false :=
  Bool.eq_false_iff.2 fun hv => h ((outValid_iff s).1 hv).2

/-- R138. -/
theorem done_iff (s : State) : (pinsOf s).done = true ↔ s.st = .done := decide_eq_true_iff

/-- R138. -/
theorem fault_iff (s : State) : (pinsOf s).fault = true ↔ s.st = .fault := decide_eq_true_iff

/-- R23: the two encodings differ. -/
theorem errCode_eq_iff (e : ErrCode) : e.code = 0b01#2 ↔ e = .truncated := by
  cases e <;> decide

/-- The parts of a cycle: the registers the block clocks, and the two streams under their strobes. -/
theorem cycle_eq (s : State) {r : Regs} {p q : Bool} (hnext : blockNext s.regs (envIn s) = r)
    (hread : (pinsOf s).bsRead = p) (hvalid : (pinsOf s).outValid = q) :
    cycle s = { s with
      st := r.st, cursor := r.cursor, err := r.err, pos := if p then s.pos + 1 else s.pos,
      out := if q then s.out ++ [sym (fetch s)] else s.out } := by
  subst hnext hread hvalid
  rfl

/-- Without a strobe only the registers change. -/
theorem cycle_eq_of_no_strobe {r : Regs} (hnext : blockNext s.regs (envIn s) = r)
    (hread : (pinsOf s).bsRead = false) (hvalid : (pinsOf s).outValid = false) :
    cycle s = { s with st := r.st, cursor := r.cursor, err := r.err } :=
  cycle_eq s hnext hread hvalid

theorem bsRead_eq_false_of_st_ne (h : s.st ≠ .descending) : (pinsOf s).bsRead = false :=
  Bool.eq_false_iff.2 fun hv => h ((bsRead_iff s).1 hv).2.1

/-- The strobes belong to Descending and Emit. -/
theorem cycle_eq_of_st_ne {r : Regs} (hnext : blockNext s.regs (envIn s) = r) (hd : s.st ≠ .descending)
    (he : s.st ≠ .emit) : cycle s = { s with st := r.st, cursor := r.cursor, err := r.err } :=
  cycle_eq_of_no_strobe hnext (bsRead_eq_false_of_st_ne hd) (outValid_eq_false_of_st_ne he)

theorem strobes_of_rst_true (hr : s.rst = true) : (pinsOf s).bsRead = false ∧ (pinsOf s).outValid = false :=
  ⟨Bool.eq_false_iff.2 fun hv => Bool.noConfusion (hr.symm.trans ((bsRead_iff s).1 hv).1),
    Bool.eq_false_iff.2 fun hv => Bool.noConfusion (hr.symm.trans ((outValid_iff s).1 hv).1)⟩

/-- R170 at the pins. -/
theorem cycle_of_rst_true (hr : s.rst = true) : cycle s = resetBlock s :=
  cycle_eq_of_no_strobe (if_pos hr) (strobes_of_rst_true hr).1 (strobes_of_rst_true hr).2

/-- R139, AtRoot on an empty stream; the rows of the table follow in its order. -/
theorem blockNext_finish (hr : s.rst = false) (hs : s.st = .atRoot) (hn : s.bits.length ≤ s.pos) :
    blockNext s.regs (envIn s) = { s.regs with st := .done } := by
  simp [blockNext, State.regs, envIn, hr, hs, (hasNext_false_iff s).2 hn]

theorem blockNext_start (hr : s.rst = false) (hs : s.st = .atRoot) (hn : s.pos < s.bits.length) :
    blockNext s.regs (envIn s) = { s.regs with st := .descending, cursor := Config.root } := by
  simp [blockNext, State.regs, envIn, hr, hs, (hasNext_iff s).2 hn]

/-- The bit the source shows is the one consumed (R135). -/
theorem blockNext_branch {b : Bit} (hr : s.rst = false) (hs : s.st = .descending) (hw : tag (fetch s) = false)
    (hb : s.bits[s.pos]? = some b) :
    blockNext s.regs (envIn s) = { s.regs with cursor := child (fetch s) b } := by
  rw [fetch] at hw ⊢
  simp [blockNext, State.regs, envIn, hr, hs, hw, hb, (hasNext_iff_some s).2 ⟨b, hb⟩]

theorem blockNext_truncate (hr : s.rst = false) (hs : s.st = .descending) (hw : tag (fetch s) = false)
    (hn : s.bits.length ≤ s.pos) : blockNext s.regs (envIn s) = { s.regs with st := .fault, err := .truncated } := by
  rw [fetch] at hw
  simp [blockNext, State.regs, envIn, hr, hs, hw, (hasNext_false_iff s).2 hn]

theorem blockNext_recognise (hr : s.rst = false) (hs : s.st = .descending) (hw : tag (fetch s) = true) :
    blockNext s.regs (envIn s) = { s.regs with st := .emit } := by
  rw [fetch] at hw
  simp [blockNext, State.regs, envIn, hr, hs, hw]

theorem blockNext_emit (hr : s.rst = false) (hs : s.st = .emit) :
    blockNext s.regs (envIn s) = { s.regs with st := .atRoot, cursor := Config.root } := by
  simp [blockNext, State.regs, envIn, hr, hs]

theorem blockNext_terminal (hr : s.rst = false) (hs : s.st = .done ∨ s.st = .fault) :
    blockNext s.regs (envIn s) = s.regs := by
  rcases hs with hs | hs <;> simp [blockNext, State.regs, envIn, hr, hs]

/-- R143, for the cases of one clock edge. -/
theorem eq_cycle_of_step (h : step s = .next t) : t = cycle s := by
  cases step_cases h with
  | reset hr ht => rw [ht, cycle_of_rst_true hr]
  | finish hr hs hn ht =>
    rw [ht, cycle_eq_of_st_ne (blockNext_finish hr hs hn) (by simp [hs]) (by simp [hs])]
    rfl
  | start hr hs hn ht =>
    rw [ht, cycle_eq_of_st_ne (blockNext_start hr hs hn) (by simp [hs]) (by simp [hs])]
    rfl
  | branch hr hs hw b hb ht =>
    have unread : s.pos < s.bits.length := (List.getElem?_eq_some_iff.1 hb).1
    rw [ht, cycle_eq s (blockNext_branch hr hs hw hb) ((bsRead_iff s).2 ⟨hr, hs, hw, unread⟩)
      (outValid_eq_false_of_st_ne (by simp [hs]))]
    rfl
  | truncate hr hs hw hn ht =>
    have starved : (pinsOf s).bsRead = false :=
      Bool.eq_false_iff.2 fun hv => Nat.not_lt.2 hn ((bsRead_iff s).1 hv).2.2.2
    rw [ht, cycle_eq_of_no_strobe (blockNext_truncate hr hs hw hn) starved
      (outValid_eq_false_of_st_ne (by simp [hs]))]
    rfl
  | recognise hr hs hw ht =>
    have leaf : (pinsOf s).bsRead = false :=
      Bool.eq_false_iff.2 fun hv => Bool.noConfusion (hw.symm.trans ((bsRead_iff s).1 hv).2.2.1)
    rw [ht, cycle_eq_of_no_strobe (blockNext_recognise hr hs hw) leaf (outValid_eq_false_of_st_ne (by simp [hs]))]
    rfl
  | emit hr hs ht =>
    rw [ht, cycle_eq s (blockNext_emit hr hs) (bsRead_eq_false_of_st_ne (by simp [hs]))
      ((outValid_iff s).2 ⟨hr, hs⟩)]
    rfl
  | stay hr hs ht =>
    have quiet : s.st ≠ .descending ∧ s.st ≠ .emit := by rcases hs with hs | hs <;> simp [hs]
    rw [ht, cycle_eq_of_st_ne (blockNext_terminal hr hs) quiet.1 quiet.2]
    rfl

theorem step_eq_cycle (s : State) : step s = .next (cycle s) := by
  obtain ⟨t, ht⟩ := exists_step s
  rw [ht, eq_cycle_of_step ht]

/-- What the strobes say of a cycle is what the step does to the streams (R135, R137). -/
theorem streams_of_step (h : step s = .next t) :
    t.pos = (if (pinsOf s).bsRead then s.pos + 1 else s.pos) ∧
    t.out = (if (pinsOf s).outValid then s.out ++ [(pinsOf s).outByte] else s.out) := by
  rw [eq_cycle_of_step h]
  exact ⟨rfl, rfl⟩

theorem pos_eq_succ_iff_bsRead (h : step s = .next t) : (pinsOf s).bsRead = true ↔ t.pos = s.pos + 1 := by
  rw [(streams_of_step h).1]
  cases (pinsOf s).bsRead <;> simp

theorem out_ne_iff_outValid (h : step s = .next t) : (pinsOf s).outValid = true ↔ t.out ≠ s.out := by
  rw [(streams_of_step h).2]
  cases (pinsOf s).outValid <;> simp

/-- After an emission the controller is at a symbol boundary, and a step later in Descending or Done: bytes are at
least three cycles apart. -/
theorem no_outValid_after_emission {u : State} (hv : (pinsOf s).outValid = true) (ht : step s = .next t)
    (hu : step t = .next u) : (pinsOf t).outValid = false ∧ (pinsOf u).outValid = false := by
  obtain ⟨hr, hs⟩ := (outValid_iff s).1 hv
  rw [step_emit hr hs] at ht
  injection ht with ht
  subst ht
  rw [step_of_atRoot ((emitAndRestart_rst _ s).trans hr) rfl] at hu
  injection hu with hu
  subst hu
  refine ⟨outValid_eq_false_of_st_ne (by simp), outValid_eq_false_of_st_ne ?_⟩
  rcases startOrFinish_cases (emitAndRestart (sym (fetch s)) s) with ⟨-, h⟩ | ⟨-, h⟩ <;> simp [h]

end Sys2Proof.Machine
end

section
/-! SUPPORT. The obligations of spec/42_ports.md on the pins. -/

namespace Sys2Proof

open Machine

/-- Settles O43: each row of the table of R139 writes the registers its step writes, and the strobes move the streams as
the step does. -/
theorem pinCycleIsStep : Obligations.PinCycleIsStep := step_eq_cycle

/-- Settles O44. -/
theorem strobesAreExact : Obligations.StrobesAreExact := by
  refine ⟨bsRead_iff, outValid_iff, pinsOf_outByte, fun s t h => ?_, fun _ _ _ => no_outValid_after_emission⟩
  refine ⟨pos_eq_succ_iff_bsRead h, out_ne_iff_outValid h, fun hv => ?_⟩
  rw [(streams_of_step h).2, if_pos hv]

/-- Settles O45. -/
theorem noStrobeUnderReset : Obligations.NoStrobeUnderReset := by
  intro s t hr h
  rw [step_of_rst_true hr] at h
  injection h with ht
  exact ⟨(strobes_of_rst_true hr).1, (strobes_of_rst_true hr).2, ht ▸ rfl, ht ▸ rfl⟩

/-- Settles O46: the levels are decided by the registers alone, and a terminal state repeats itself. -/
theorem statusPinsAreLevels : Obligations.StatusPinsAreLevels := by
  refine ⟨fun s => ⟨pinsOf_nmAddr s, done_iff s, fault_iff s, pinsOf_err s, ?_⟩, fun s t hr h => ⟨fun hd => ?_, fun hf => ?_⟩,
    fun s hi => ?_⟩
  · rw [Bool.and_eq_false_iff, ← Bool.not_eq_true, ← Bool.not_eq_true, done_iff, fault_iff]
    cases s.st <;> simp
  · rw [step_of_terminal hr (.inl ((done_iff s).1 hd))] at h
    injection h with ht
    exact ht ▸ hd
  · rw [step_of_terminal hr (.inr ((fault_iff s).1 hf))] at h
    injection h with ht
    exact ht ▸ hf
  · rw [fault_iff, pinsOf_err, errCode_eq_iff, hi.err_iff_fault]

end Sys2Proof
end

section
/-! SUPPORT. Host moves under reset and the boot sequence (spec/70_reset_and_hazards.md R173), and several blocks on one
tree (spec/20_memory.md R59). -/

namespace Sys2Proof.Machine

theorem hostWriteNode_of_rst_true (i : NodeIdx) (w : NodeWord) {s : State} (h : s.rst = true) :
    hostWriteNode i w s = .next { s with nodes := NodeMem.write s.nodes i w } :=
  (hostWriteNode_next_iff i w s _).2 ⟨h, rfl⟩

theorem hostPresentSource_of_rst_true (bits : List Bit) {s : State} (h : s.rst = true) :
    hostPresentSource bits s = .next { s with bits := bits, pos := 0 } :=
  (hostPresentSource_next_iff bits s _).2 ⟨h, rfl⟩

theorem hostPrepareSink_of_rst_true {s : State} (h : s.rst = true) : hostPrepareSink s = .next { s with out := [] } :=
  (hostPrepareSink_next_iff s _).2 ⟨h, rfl⟩

/-- Words past the last index are not written. -/
theorem NodeMem.writeImage_of_nnodes_le {a : Nat} (ha : Config.nnodes ≤ a) (ws : List NodeWord) (m : NodeMem) :
    writeImage a ws m = m := by
  induction ws generalizing a with
  | nil => rfl
  | cons w ws ih => rw [writeImage, if_neg (Nat.not_lt.2 ha), ih (ha.trans (Nat.le_succ a))]

theorem NodeMem.write_ofNat {a : Nat} (ha : a < Config.nnodes) (w : NodeWord) (m : NodeMem) :
    write m (BitVec.ofNat 9 a) w = writeAt a w m := by
  exact congrArg (writeAt · w m) (Nat.mod_eq_of_lt ha)

/-- The host's word-by-word write is the image write (R87), surplus words left out by both. -/
theorem hostWriteImage_of_rst_true (a : Nat) (ws : List NodeWord) {s : State} (h : s.rst = true) :
    hostWriteImage a ws s = .next { s with nodes := NodeMem.writeImage a ws s.nodes } := by
  induction ws generalizing a s with
  | nil => rfl
  | cons w ws ih =>
    rw [hostWriteImage]
    split
    · next ha =>
      rw [hostWriteNode_of_rst_true _ _ h, NodeMem.write_ofNat ha, NodeMem.writeImage, if_pos ha]
      exact ih (a + 1) h
    · next ha => rw [NodeMem.writeImage_of_nnodes_le (Nat.not_lt.1 ha)]

theorem stepOne_of_step {cl : Cluster} {k : Nat} {s t : State} (hk : cl[k]? = some s) (ht : step s = .next t) :
    stepOne k cl = .next (cl.set k t) := by
  simp [stepOne, hk, ht]

theorem sharesTree_iff (m : NodeMem) (cl : Cluster) : sharesTree m cl = true ↔ ∀ s ∈ cl, s.nodes = m := by
  simp [sharesTree]

/-- No step of a block stores into the tree it shares. -/
theorem sharesTree_set {m : NodeMem} {cl : Cluster} {k : Nat} {s t : State} (hk : cl[k]? = some s)
    (ht : step s = .next t) (h : sharesTree m cl = true) : sharesTree m (cl.set k t) = true := by
  rw [sharesTree_iff] at h ⊢
  intro u hu
  rcases List.mem_or_eq_of_mem_set hu with hu | rfl
  · exact h u hu
  · exact (edgeFrame_of_step ht).nodes.trans (h s (List.mem_of_getElem? hk))

theorem exists_stepAll (cl : Cluster) :
    ∃ d : Cluster, stepAll cl = .next d ∧ List.Forall₂ (fun s t => step s = .next t) cl d := by
  induction cl with
  | nil => exact ⟨[], rfl, .nil⟩
  | cons s cl ih =>
    obtain ⟨t, ht⟩ := exists_step s
    obtain ⟨d, hd, hall⟩ := ih
    exact ⟨t :: d, by simp [stepAll, ht, hd], .cons ht hall⟩

theorem sharesTree_of_forall₂ {m : NodeMem} {cl d : Cluster} (hall : List.Forall₂ (fun s t => step s = .next t) cl d)
    (h : sharesTree m cl = true) : sharesTree m d = true := by
  rw [sharesTree_iff] at h ⊢
  induction hall with
  | nil => exact h
  | cons ht _ ih =>
    rw [List.forall_mem_cons] at h ⊢
    exact ⟨(edgeFrame_of_step ht).nodes.trans h.1, ih h.2⟩

end Sys2Proof.Machine

namespace Sys2Proof

open Machine

/-- Settles O47: the level of `rst` decides each move, and a node write is `NodeMem.write`. -/
theorem hostMovesOnlyUnderReset : Obligations.HostMovesOnlyUnderReset := by
  refine ⟨fun s i w bits hr => ?_, fun s i w hr hwf => ?_, fun s bits hr => ?_⟩
  · have refused : ¬ s.rst = true := by simp [hr]
    exact ⟨if_neg refused, if_neg refused, if_neg refused⟩
  · exact ⟨_, hostWriteNode_of_rst_true i w hr, NodeMem.wf_write _ i w hwf, fun j => NodeMem.read_write _ i j w hwf⟩
  · exact ⟨hostPresentSource_of_rst_true bits hr, hostPrepareSink_of_rst_true hr⟩

/-- Settles O48: after the edge under reset `rst` stays 1, so no later move is refused. -/
theorem bootReachesInitialConfiguration : Obligations.BootReachesInitialConfiguration := by
  intro s image bits
  refine (andThen_next_iff _ _ _).2 ⟨resetBlock (assertRst s), step_of_rst_true rfl, ?_⟩
  refine (andThen_next_iff _ _ _).2 ⟨_, hostWriteImage_of_rst_true 0 image rfl, ?_⟩
  refine (andThen_next_iff _ _ _).2 ⟨_, hostPresentSource_of_rst_true bits rfl, ?_⟩
  exact (andThen_next_iff _ _ _).2 ⟨_, hostPrepareSink_of_rst_true rfl, rfl⟩

/-- Settles O49: a block's step keeps its copy of the tree, and `set` leaves the other positions alone. -/
theorem instancesDoNotInteract : Obligations.InstancesDoNotInteract := by
  refine ⟨fun cl k s hk => ?_, fun cl => ?_⟩
  · obtain ⟨t, ht⟩ := exists_step s
    exact ⟨t, ht, stepOne_of_step hk ht, fun j hj => List.getElem?_set_ne hj.symm, fun m => sharesTree_set hk ht⟩
  · obtain ⟨d, hd, hall⟩ := exists_stepAll cl
    exact ⟨d, hd, hall, fun m => sharesTree_of_forall₂ hall⟩

end Sys2Proof
end

section
/-! SUPPORT. The leaves of a code tree (spec/20_memory.md R45): no path is an initial segment of another's, and
every bit string runs into a leaf or ends inside the tree. -/

namespace Sys2Proof.Machine

/-- No clash of R86: neither path is an initial segment of the other. -/
def NoClash (a b : CodeWord) : Prop := ¬ a.1 <+: b.1 ∧ ¬ b.1 <+: a.1

theorem NoClash.symm {a b : CodeWord} (h : NoClash a b) : NoClash b a := And.symm h

theorem noClash_underBranch (b : Bit) {c d : CodeWord} (h : NoClash c d) :
    NoClash (underBranch b c) (underBranch b d) :=
  ⟨fun hp => h.1 ((List.prefix_cons_inj b).1 hp), fun hp => h.2 ((List.prefix_cons_inj b).1 hp)⟩

/-- Paths that part at the first branch do not clash. -/
theorem noClash_of_branch_ne {a b : Bit} (hab : a ≠ b) (c d : CodeWord) :
    NoClash (underBranch a c) (underBranch b d) :=
  ⟨fun hp => hab (List.cons_prefix_cons.1 hp).1, fun hp => hab (List.cons_prefix_cons.1 hp).1.symm⟩

theorem mem_leaves_node {l r : CodeTree} {c : CodeWord} :
    c ∈ (CodeTree.node l r).leaves ↔
      (∃ d ∈ l.leaves, c = underBranch false d) ∨ (∃ d ∈ r.leaves, c = underBranch true d) := by
  simp [CodeTree.leaves, eq_comm]

theorem mem_leaves_leaf {s : Byte} {c : CodeWord} : c ∈ (CodeTree.leaf s).leaves ↔ c = ([], s) := by
  simp [CodeTree.leaves]

theorem exists_mem_leaves (t : CodeTree) : ∃ c, c ∈ t.leaves := by
  induction t with
  | leaf s => exact ⟨_, mem_leaves_leaf.2 rfl⟩
  | node l r ihl _ =>
    obtain ⟨c, hc⟩ := ihl
    exact ⟨_, mem_leaves_node.2 (.inl ⟨c, hc, rfl⟩)⟩

theorem path_ne_nil_of_mem_node {l r : CodeTree} {c : CodeWord} (h : c ∈ (CodeTree.node l r).leaves) : c.1 ≠ [] := by
  rcases mem_leaves_node.1 h with ⟨d, -, rfl⟩ | ⟨d, -, rfl⟩ <;> exact List.cons_ne_nil _ _

/-- R45: leaves on different sides part at the root, leaves on one side by induction. -/
theorem leaves_pairwise_noClash (t : CodeTree) : t.leaves.Pairwise NoClash := by
  induction t with
  | leaf s => exact List.pairwise_singleton _ _
  | node l r ihl ihr =>
    refine List.pairwise_append.2 ⟨List.pairwise_map.2 (ihl.imp (noClash_underBranch false)),
      List.pairwise_map.2 (ihr.imp (noClash_underBranch true)), fun a ha b hb => ?_⟩
    obtain ⟨c, -, rfl⟩ := List.mem_map.1 ha
    obtain ⟨d, -, rfl⟩ := List.mem_map.1 hb
    exact noClash_of_branch_ne Bool.false_ne_true c d

/-- Two leaves whose paths are comparable are one leaf. -/
theorem leaf_eq_of_prefix {t : CodeTree} {c d : CodeWord} (hc : c ∈ t.leaves) (hd : d ∈ t.leaves) (h : c.1 <+: d.1) :
    c = d := by
  by_contra hne
  have symmetric : Std.Symm NoClash := ⟨fun _ _ => NoClash.symm⟩
  exact ((leaves_pairwise_noClash t).forall hc hd hne).1 h

/-- A bit string runs into a leaf or ends on the way to one. -/
theorem exists_leaf_comparable (t : CodeTree) (bits : List Bit) :
    ∃ c ∈ t.leaves, c.1 <+: bits ∨ (bits <+: c.1 ∧ bits ≠ c.1) := by
  induction t generalizing bits with
  | leaf s => exact ⟨_, mem_leaves_leaf.2 rfl, .inl List.nil_prefix⟩
  | node l r ihl ihr =>
    match bits with
    | [] =>
      obtain ⟨c, hc⟩ := exists_mem_leaves (.node l r)
      exact ⟨c, hc, .inr ⟨List.nil_prefix, (path_ne_nil_of_mem_node hc).symm⟩⟩
    | false :: bits =>
      obtain ⟨c, hc, h⟩ := ihl bits
      refine ⟨underBranch false c, mem_leaves_node.2 (.inl ⟨c, hc, rfl⟩), ?_⟩
      simpa [underBranch] using h
    | true :: bits =>
      obtain ⟨c, hc, h⟩ := ihr bits
      refine ⟨underBranch true c, mem_leaves_node.2 (.inr ⟨c, hc, rfl⟩), ?_⟩
      simpa [underBranch] using h

/-- Code words of `t` and then a proper initial segment of one (R125). -/
def Decomposes (t : CodeTree) (bits : List Bit) (d : List CodeWord × List Bit) : Prop :=
  (∀ c ∈ d.1, c ∈ t.leaves) ∧ bits = d.1.flatMap Prod.fst ++ d.2 ∧ ∃ c ∈ t.leaves, d.2 <+: c.1 ∧ d.2 ≠ c.1

/-- Each code word found is not empty, so what is left of the stream gets shorter. -/
theorem exists_decomposition (l r : CodeTree) (bits : List Bit) : ∃ d, Decomposes (.node l r) bits d := by
  induction hn : bits.length using Nat.strongRecOn generalizing bits with
  | ind n ih =>
    obtain ⟨c, hc, ⟨rest, hrest⟩ | hproper⟩ := exists_leaf_comparable (.node l r) bits
    · have shorter : rest.length < n := by
        have := List.length_pos_of_ne_nil (path_ne_nil_of_mem_node hc)
        rw [← hn, ← hrest, List.length_append]
        omega
      obtain ⟨⟨xs, p⟩, hxs, hbits, hp⟩ := ih _ shorter rest rfl
      refine ⟨(c :: xs, p), List.forall_mem_cons.2 ⟨hc, hxs⟩, ?_, hp⟩
      rw [← hrest, hbits, List.flatMap_cons, List.append_assoc]
    · exact ⟨([], bits), by simp, rfl, c, hc, hproper⟩

theorem Decomposes.cons {t : CodeTree} {bits p : List Bit} {x : CodeWord} {xs : List CodeWord}
    (h : Decomposes t bits (x :: xs, p)) : x ∈ t.leaves ∧ ∃ rest, bits = x.1 ++ rest ∧ Decomposes t rest (xs, p) := by
  obtain ⟨hxs, hbits, hp⟩ := h
  obtain ⟨hx, hxs⟩ := List.forall_mem_cons.1 hxs
  rw [List.flatMap_cons, List.append_assoc] at hbits
  exact ⟨hx, _, hbits, hxs, rfl, hp⟩

/-- A proper initial segment of a code word does not begin with a code word. -/
theorem Decomposes.nil_ne {t : CodeTree} {bits p rest : List Bit} {x : CodeWord} (h : Decomposes t bits ([], p))
    (hx : x ∈ t.leaves) : bits ≠ x.1 ++ rest := by
  obtain ⟨-, hbits, c, hc, hp, hne⟩ := h
  rintro hxr
  have hpx : x.1 ++ rest = p := hxr.symm.trans hbits
  have hxc : x = c := leaf_eq_of_prefix hx hc ((List.prefix_append _ rest).trans (hpx ▸ hp))
  exact hne (hp.eq_of_length_le (by rw [← hxc, ← hpx, List.length_append]; exact Nat.le_add_right _ _))

theorem decomposition_unique {t : CodeTree} {bits : List Bit} {d e : List CodeWord × List Bit}
    (hd : Decomposes t bits d) (he : Decomposes t bits e) : d = e := by
  obtain ⟨xs, p⟩ := d
  obtain ⟨ys, q⟩ := e
  induction xs generalizing bits ys with
  | nil =>
    cases ys with
    | nil => exact congrArg (Prod.mk []) (hd.2.1.symm.trans he.2.1)
    | cons y ys =>
      obtain ⟨hy, rest, hbits, -⟩ := he.cons
      exact absurd hbits (hd.nil_ne hy)
  | cons x xs ih =>
    obtain ⟨hx, rest, hbits, hd'⟩ := hd.cons
    cases ys with
    | nil => exact absurd hbits (he.nil_ne hx)
    | cons y ys =>
      obtain ⟨hy, rest', hbits', he'⟩ := he.cons
      have hxy : x = y := by
        rcases List.prefix_or_prefix_of_prefix ⟨rest, hbits.symm⟩ ⟨rest', hbits'.symm⟩ with h | h
        · exact leaf_eq_of_prefix hx hy h
        · exact (leaf_eq_of_prefix hy hx h).symm
      subst hxy
      have hrest : rest = rest' := List.append_cancel_left (hbits.symm.trans hbits')
      subst hrest
      obtain ⟨hxs, hpq⟩ := Prod.mk.inj (ih hd' ys he')
      rw [hxs, hpq]

end Sys2Proof.Machine

namespace Sys2Proof

open Machine

/-- Settles O42. -/
theorem leafPathsArePrefixFree : Obligations.LeafPathsArePrefixFree := leaves_pairwise_noClash

/-- Settles O34: no code word begins another, so that each next code word is the only possible one. -/
theorem everyStreamDecomposesUniquely : Obligations.EveryStreamDecomposesUniquely := by
  intro l r bits
  obtain ⟨d, hd⟩ := exists_decomposition l r bits
  exact ⟨d, hd, fun _ he => decomposition_unique he hd⟩

end Sys2Proof
end

section
/-! SUPPORT. The nodes reached in an image, and the tree it denotes (spec/20_memory.md R44): a code word is a path to a
leaf, a proper initial segment of one a path to an internal node. -/

namespace Sys2Proof.Machine

variable {m : NodeMem} {i j : NodeIdx} {t : CodeTree}

@[simp] theorem child_false (w : NodeWord) : child w false = left w := rfl
@[simp] theorem child_true (w : NodeWord) : child w true = right w := rfl

theorem reach_cons_of_internal (h : tag (NodeMem.read m i) = false) (b : Bit) (p : List Bit) :
    reach m i (b :: p) = reach m (child (NodeMem.read m i) b) p := if_neg (by simp [h])

theorem reach_cons_of_leaf (h : tag (NodeMem.read m i) = true) (b : Bit) (p : List Bit) :
    reach m i (b :: p) = none := if_pos h

/-- A path that goes on leaves an internal node. -/
theorem reach_cons_eq_some_iff {b : Bit} {p : List Bit} : reach m i (b :: p) = some j ↔
    tag (NodeMem.read m i) = false ∧ reach m (child (NodeMem.read m i) b) p = some j := by
  cases h : tag (NodeMem.read m i) with
  | true => simp [reach_cons_of_leaf h]
  | false => simp [reach_cons_of_internal h]

/-- From a leaf only the empty path leads anywhere. -/
theorem eq_nil_of_reach_of_leaf {p : List Bit} (h : tag (NodeMem.read m i) = true) (hp : reach m i p = some j) :
    p = [] ∧ j = i := by
  cases p with
  | nil => exact ⟨rfl, (Option.some.inj hp).symm⟩
  | cons b p => simp [reach_cons_of_leaf h] at hp

theorem reach_append (m : NodeMem) (i : NodeIdx) (p q : List Bit) :
    reach m i (p ++ q) = (reach m i p).bind fun j => reach m j q := by
  induction p generalizing i with
  | nil => rfl
  | cons b p ih =>
    cases h : tag (NodeMem.read m i) with
    | true => simp [reach_cons_of_leaf h]
    | false => rw [List.cons_append, reach_cons_of_internal h, reach_cons_of_internal h, ih]

/-- One branch further. -/
theorem reach_concat {p : List Bit} (hp : reach m i p = some j) (h : tag (NodeMem.read m j) = false) (b : Bit) :
    reach m i (p ++ [b]) = some (child (NodeMem.read m j) b) := by
  rw [reach_append, hp]
  exact reach_cons_of_internal h b []

theorem reach_isSome_of_prefix {p q : List Bit} (hpq : p <+: q) (hq : (reach m i q).isSome = true) :
    (reach m i p).isSome = true := by
  obtain ⟨r, rfl⟩ := hpq
  rw [reach_append] at hq
  exact Option.isSome_of_isSome_bind hq

/-- A leaf of the denoted tree is a leaf word at the end of its path. -/
theorem reach_of_mem_leaves (h : Denotes m i t) {c : CodeWord} (hc : c ∈ t.leaves) :
    ∃ j, reach m i c.1 = some j ∧ tag (NodeMem.read m j) = true ∧ sym (NodeMem.read m j) = c.2 := by
  induction h generalizing c with
  | leaf i hw =>
    rw [mem_leaves_leaf] at hc
    subst hc
    exact ⟨i, rfl, hw, rfl⟩
  | node i l r hw _ _ ihl ihr =>
    rcases mem_leaves_node.1 hc with ⟨d, hd, rfl⟩ | ⟨d, hd, rfl⟩
    · obtain ⟨j, hj, hleaf⟩ := ihl hd
      exact ⟨j, (reach_cons_of_internal hw false d.1).trans hj, hleaf⟩
    · obtain ⟨j, hj, hleaf⟩ := ihr hd
      exact ⟨j, (reach_cons_of_internal hw true d.1).trans hj, hleaf⟩

/-- The leaf word at the end of a code word is not left by a longer path, so a proper initial segment ends before
it, on an internal node. -/
theorem reach_of_proper_prefix (h : Denotes m i t) {c : CodeWord} (hc : c ∈ t.leaves) {p : List Bit} (hp : p <+: c.1)
    (hne : p ≠ c.1) : ∃ j, reach m i p = some j ∧ tag (NodeMem.read m j) = false := by
  obtain ⟨k, hk, -, -⟩ := reach_of_mem_leaves h hc
  obtain ⟨q, hq⟩ := hp
  rw [← hq, reach_append, Option.bind_eq_some_iff] at hk
  obtain ⟨j, hj, hjk⟩ := hk
  refine ⟨j, hj, Bool.eq_false_iff.2 fun hleaf => hne ?_⟩
  rw [← hq, (eq_nil_of_reach_of_leaf hleaf hjk).1, List.append_nil]

theorem Denotes.eq_leaf (h : Denotes m i t) (hw : tag (NodeMem.read m i) = true) :
    t = .leaf (sym (NodeMem.read m i)) := by
  cases h with
  | leaf _ _ => rfl
  | node _ l r hw' _ _ => exact Bool.noConfusion (hw.symm.trans hw')

theorem Denotes.eq_node (h : Denotes m i t) (hw : tag (NodeMem.read m i) = false) :
    ∃ l r, t = .node l r ∧ Denotes m (left (NodeMem.read m i)) l ∧ Denotes m (right (NodeMem.read m i)) r := by
  cases h with
  | leaf _ hw' => exact Bool.noConfusion (hw.symm.trans hw')
  | node _ l r _ hl hr => exact ⟨l, r, rfl, hl, hr⟩

/-- An index denotes at most one tree: the words leave no choice. -/
theorem Denotes.unique {u : CodeTree} (h : Denotes m i t) (h' : Denotes m i u) : t = u := by
  induction h generalizing u with
  | leaf i hw => exact (h'.eq_leaf hw).symm
  | node i l r hw _ _ ihl ihr =>
    obtain ⟨l', r', rfl, hl', hr'⟩ := h'.eq_node hw
    rw [ihl hl', ihr hr']

/-- An image with an internal root denotes a tree with an internal root. -/
theorem path_ne_nil_of_internal (h : Denotes m i t) (hw : tag (NodeMem.read m i) = false) {c : CodeWord}
    (hc : c ∈ t.leaves) : c.1 ≠ [] := by
  obtain ⟨l, r, rfl, -, -⟩ := h.eq_node hw
  exact path_ne_nil_of_mem_node hc

end Sys2Proof.Machine
end

section
/-! SUPPORT. The indices below a node, in pre-order, decide whether an image is well-formed: R44 (a) says that none
repeats. -/

namespace Sys2Proof.Machine

variable {m : NodeMem} {i j : NodeIdx} {t : CodeTree}

/-- R44 (a) below any index. -/
def UniquePaths (m : NodeMem) (i : NodeIdx) : Prop :=
  ∀ (p q : List Bit) (j : NodeIdx), reach m i p = some j → reach m i q = some j → p = q

/-- The indices of the nodes of a tree denoted at `i`, in pre-order. -/
def nodeIndices (m : NodeMem) (i : NodeIdx) : CodeTree → List NodeIdx
  | .leaf _ => [i]
  | .node l r => i :: (nodeIndices m (left (NodeMem.read m i)) l ++ nodeIndices m (right (NodeMem.read m i)) r)

theorem length_le_nnodes_of_nodup {is : List NodeIdx} (h : is.Nodup) : is.length ≤ Config.nnodes := by
  have hcard : Fintype.card NodeIdx = Config.nnodes := by
    rw [← FinEnum.card_eq_fintypeCard]
    rfl
  exact hcard ▸ h.length_le_card

/-- The indices below `i` are those reached from it. -/
theorem mem_nodeIndices_iff (h : Denotes m i t) : j ∈ nodeIndices m i t ↔ ∃ p, reach m i p = some j := by
  induction h with
  | leaf i hw =>
    rw [nodeIndices, List.mem_singleton]
    exact ⟨fun hj => ⟨[], hj ▸ rfl⟩, fun ⟨_, hp⟩ => (eq_nil_of_reach_of_leaf hw hp).2⟩
  | node i l r hw _ _ ihl ihr =>
    rw [nodeIndices, List.mem_cons, List.mem_append, ihl, ihr]
    constructor
    · rintro (rfl | ⟨p, hp⟩ | ⟨p, hp⟩)
      · exact ⟨[], rfl⟩
      · exact ⟨false :: p, (reach_cons_of_internal hw _ _).trans hp⟩
      · exact ⟨true :: p, (reach_cons_of_internal hw _ _).trans hp⟩
    · rintro ⟨p, hp⟩
      match p with
      | [] => exact .inl (Option.some.inj hp).symm
      | false :: p => exact .inr (.inl ⟨p, (reach_cons_of_internal hw _ _).symm.trans hp⟩)
      | true :: p => exact .inr (.inr ⟨p, (reach_cons_of_internal hw _ _).symm.trans hp⟩)

theorem UniquePaths.child (h : UniquePaths m i) (hw : tag (NodeMem.read m i) = false) (b : Bit) :
    UniquePaths m (child (NodeMem.read m i) b) := fun p q j hp hq =>
  (List.cons.inj (h (b :: p) (b :: q) j ((reach_cons_of_internal hw b p).trans hp)
    ((reach_cons_of_internal hw b q).trans hq))).2

/-- Unique paths to the nodes below an internal node: back to itself leads none, and the two sides share no node. -/
theorem uniquePaths_iff_of_internal (hw : tag (NodeMem.read m i) = false) :
    UniquePaths m i ↔ (∀ b p, reach m (Machine.child (NodeMem.read m i) b) p ≠ some i) ∧
      (∀ b, UniquePaths m (Machine.child (NodeMem.read m i) b)) ∧
      ∀ p q j, reach m (left (NodeMem.read m i)) p = some j → reach m (right (NodeMem.read m i)) q ≠ some j := by
  constructor
  · refine fun h => ⟨fun b p hp => ?_, h.child hw, fun p q j hp hq => ?_⟩
    · exact List.cons_ne_nil b p (h _ _ i ((reach_cons_of_internal hw b p).trans hp) rfl)
    · have := h (false :: p) (true :: q) j ((reach_cons_of_internal hw _ _).trans hp)
        ((reach_cons_of_internal hw _ _).trans hq)
      simp at this
  · rintro ⟨hroot, hchild, hdisj⟩ p q j hp hq
    match p, q with
    | [], [] => rfl
    | [], b :: q =>
      cases hp
      exact absurd ((reach_cons_of_internal hw b q).symm.trans hq) (hroot b q)
    | b :: p, [] =>
      cases hq
      exact absurd ((reach_cons_of_internal hw b p).symm.trans hp) (hroot b p)
    | b :: p, c :: q =>
      rw [reach_cons_of_internal hw] at hp hq
      match b, c with
      | false, false => rw [hchild false p q j hp hq]
      | true, true => rw [hchild true p q j hp hq]
      | false, true => exact absurd hq (hdisj p q j hp)
      | true, false => exact absurd hp (hdisj q p j hq)

theorem uniquePaths_of_leaf (hw : tag (NodeMem.read m i) = true) : UniquePaths m i := fun p q j hp hq => by
  rw [(eq_nil_of_reach_of_leaf hw hp).1, (eq_nil_of_reach_of_leaf hw hq).1]

/-- R44 (a), read off the pre-order of the indices. -/
theorem nodup_nodeIndices_iff (h : Denotes m i t) : (nodeIndices m i t).Nodup ↔ UniquePaths m i := by
  induction h with
  | leaf i hw => exact iff_of_true (List.nodup_singleton i) (uniquePaths_of_leaf hw)
  | node i l r hw hl hr ihl ihr =>
    rw [nodeIndices, List.nodup_cons, List.mem_append, mem_nodeIndices_iff hl, mem_nodeIndices_iff hr,
      List.nodup_append', ihl, ihr, uniquePaths_iff_of_internal hw]
    simp only [List.disjoint_left, mem_nodeIndices_iff hl, mem_nodeIndices_iff hr, Bool.forall_bool, child_false,
      child_true]
    constructor
    · rintro ⟨hroot, hul, hur, hdisj⟩
      exact ⟨⟨fun p hp => hroot (.inl ⟨p, hp⟩), fun p hp => hroot (.inr ⟨p, hp⟩)⟩, ⟨hul, hur⟩,
        fun p q j hp hq => hdisj ⟨p, hp⟩ ⟨q, hq⟩⟩
    · rintro ⟨⟨hrootl, hrootr⟩, ⟨hul, hur⟩, hdisj⟩
      refine ⟨?_, hul, hur, fun j ⟨p, hp⟩ ⟨q, hq⟩ => hdisj p q j hp hq⟩
      rintro (⟨p, hp⟩ | ⟨p, hp⟩)
      · exact hrootl p hp
      · exact hrootr p hp

end Sys2Proof.Machine
end

section
/-! SUPPORT. The tree of a well-formed image, computed (spec/20_memory.md R44). -/

namespace Sys2Proof.Machine

variable {m : NodeMem} {i : NodeIdx} {t : CodeTree}

theorem denotes_of_treeAt {n : Nat} (h : treeAt n m i = some t) : Denotes m i t := by
  induction n generalizing i t with
  | zero => cases h
  | succ n ih =>
    rw [treeAt] at h
    split at h
    · next hw =>
      cases h
      exact .leaf i hw
    · next hw =>
      split at h
      · next l r hl hr =>
        cases h
        exact .node i l r (by simpa using hw) (ih hl) (ih hr)
      · cases h

/-- Where the walk to depth `n` finds no tree it has followed a path of length `n`. -/
theorem exists_path_of_treeAt_none {n : Nat} (h : treeAt n m i = none) :
    ∃ p : List Bit, p.length = n ∧ (reach m i p).isSome = true := by
  induction n generalizing i with
  | zero => exact ⟨[], rfl, rfl⟩
  | succ n ih =>
    rw [treeAt] at h
    split at h
    · cases h
    · next hw =>
      have hw : tag (NodeMem.read m i) = false := by simpa using hw
      have hbelow : ∃ b, treeAt n m (child (NodeMem.read m i) b) = none := by
        cases hl : treeAt n m (left (NodeMem.read m i)) with
        | none => exact ⟨false, hl⟩
        | some l =>
          cases hr : treeAt n m (right (NodeMem.read m i)) with
          | none => exact ⟨true, hr⟩
          | some r => simp [hl, hr] at h
      obtain ⟨b, hb⟩ := hbelow
      obtain ⟨p, hlen, hp⟩ := ih hb
      exact ⟨b :: p, congrArg (· + 1) hlen, (reach_cons_of_internal hw b p).symm ▸ hp⟩

/-- Unique paths visit distinct indices, so none is longer than node memory has words. -/
theorem length_lt_of_uniquePaths (h : UniquePaths m i) {p : List Bit} (hp : (reach m i p).isSome = true) :
    p.length < Config.nnodes := by
  have injective : ∀ x ∈ List.range (p.length + 1), ∀ y ∈ List.range (p.length + 1),
      (reach m i (p.take x)).getD i = (reach m i (p.take y)).getD i → x = y := by
    intro x hx y hy hxy
    obtain ⟨j, hj⟩ := Option.isSome_iff_exists.1 (reach_isSome_of_prefix (List.take_prefix x p) hp)
    obtain ⟨k, hk⟩ := Option.isSome_iff_exists.1 (reach_isSome_of_prefix (List.take_prefix y p) hp)
    rw [hj, hk, Option.getD_some, Option.getD_some] at hxy
    have hlen := congrArg List.length (h _ _ j hj (hxy ▸ hk))
    rw [List.mem_range] at hx hy
    rw [List.length_take, List.length_take] at hlen
    omega
  have bound := length_le_nnodes_of_nodup (List.nodup_range.map_on injective)
  rw [List.length_map, List.length_range] at bound
  exact bound

theorem exists_treeAt_of_uniquePaths (h : UniquePaths m i) : ∃ t, treeAt Config.nnodes m i = some t := by
  cases ht : treeAt Config.nnodes m i with
  | some t => exact ⟨t, rfl⟩
  | none =>
    obtain ⟨p, hlen, hp⟩ := exists_path_of_treeAt_none ht
    exact absurd hlen (length_lt_of_uniquePaths h hp).ne

theorem exists_denotes_of_wellFormed (h : WellFormedImage m) : ∃ t, Denotes m Config.root t := by
  obtain ⟨t, ht⟩ := exists_treeAt_of_uniquePaths h
  exact ⟨t, denotes_of_treeAt ht⟩

end Sys2Proof.Machine
end

section
/-! SUPPORT. The computed check of R44 (a): the walk succeeds exactly where the indices it is to visit do not repeat. -/

namespace Sys2Proof.Machine

variable {m : NodeMem} {i : NodeIdx}

/-- The indices below a list of nodes, each with its tree. -/
def forestIndices (m : NodeMem) (f : List (NodeIdx × CodeTree)) : List NodeIdx :=
  f.flatMap fun x => nodeIndices m x.1 x.2

/-- Indices that can be visited in `n` rounds after those of `seen`. -/
def Fresh (n : Nat) (seen is : List NodeIdx) : Prop := is.Nodup ∧ (∀ j ∈ is, j ∉ seen) ∧ is.length ≤ n

/-- One round visits the first index. -/
theorem fresh_cons_iff {n : Nat} {seen is : List NodeIdx} :
    Fresh (n + 1) seen (i :: is) ↔ i ∉ seen ∧ Fresh n (i :: seen) is := by
  rw [Fresh, List.nodup_cons, List.forall_mem_cons, List.length_cons, Nat.add_le_add_iff_right, Fresh]
  simp only [List.mem_cons, not_or]
  constructor
  · rintro ⟨⟨hi, hnd⟩, ⟨hseen, hall⟩, hlen⟩
    exact ⟨hseen, hnd, fun j hj => ⟨fun hji => hi (hji ▸ hj), hall j hj⟩, hlen⟩
  · rintro ⟨hseen, hnd, hall, hlen⟩
    exact ⟨⟨fun hi => (hall i hi).1 rfl, hnd⟩, ⟨hseen, fun j hj => (hall j hj).2⟩, hlen⟩

/-- The nodes of `todo` denote trees whose indices can be visited in `n` rounds after those of `seen`. -/
def CheckPasses (m : NodeMem) (n : Nat) (todo seen : List NodeIdx) : Prop :=
  ∃ f : List (NodeIdx × CodeTree), f.map Prod.fst = todo ∧ (∀ x ∈ f, Denotes m x.1 x.2) ∧
    Fresh n seen (forestIndices m f)

theorem checkPasses_nil (n : Nat) (seen : List NodeIdx) : CheckPasses m n [] seen :=
  ⟨[], rfl, by simp, List.nodup_nil, by simp [forestIndices], Nat.zero_le n⟩

/-- A node to visit comes with its tree. -/
theorem checkPasses_cons_iff {n : Nat} {todo seen : List NodeIdx} :
    CheckPasses m n (i :: todo) seen ↔ ∃ t f, Denotes m i t ∧ f.map Prod.fst = todo ∧
      (∀ x ∈ f, Denotes m x.1 x.2) ∧ Fresh n seen (nodeIndices m i t ++ forestIndices m f) := by
  constructor
  · rintro ⟨f, hmap, hden, hfresh⟩
    obtain ⟨⟨j, t⟩, f, rfl, rfl, rfl⟩ := List.map_eq_cons_iff.1 hmap
    rw [List.forall_mem_cons] at hden
    exact ⟨t, f, hden.1, rfl, hden.2, hfresh⟩
  · rintro ⟨t, f, ht, rfl, hden, hfresh⟩
    exact ⟨(i, t) :: f, rfl, List.forall_mem_cons.2 ⟨ht, hden⟩, hfresh⟩

/-- A tree has its root to visit. -/
theorem nodeIndices_eq_cons (m : NodeMem) (i : NodeIdx) (t : CodeTree) : ∃ is, nodeIndices m i t = i :: is := by
  cases t with
  | leaf s => exact ⟨[], rfl⟩
  | node l r => exact ⟨_, rfl⟩

theorem not_checkPasses_zero {todo seen : List NodeIdx} : ¬ CheckPasses m 0 (i :: todo) seen := by
  rw [checkPasses_cons_iff]
  rintro ⟨t, f, -, -, -, -, -, hlen⟩
  obtain ⟨is, his⟩ := nodeIndices_eq_cons m i t
  simp [his] at hlen

theorem not_checkPasses_of_seen {n : Nat} {todo seen : List NodeIdx} (h : i ∈ seen) :
    ¬ CheckPasses m n (i :: todo) seen := by
  rw [checkPasses_cons_iff]
  rintro ⟨t, f, -, -, -, -, hall, -⟩
  obtain ⟨is, his⟩ := nodeIndices_eq_cons m i t
  exact hall i (by simp [his]) h

theorem checkPasses_cons_of_leaf {n : Nat} {todo seen : List NodeIdx} (hw : tag (NodeMem.read m i) = true)
    (hi : i ∉ seen) : CheckPasses m (n + 1) (i :: todo) seen ↔ CheckPasses m n todo (i :: seen) := by
  rw [checkPasses_cons_iff]
  constructor
  · rintro ⟨t, f, ht, hmap, hden, hfresh⟩
    rw [ht.eq_leaf hw] at hfresh
    exact ⟨f, hmap, hden, (fresh_cons_iff.1 hfresh).2⟩
  · rintro ⟨f, hmap, hden, hfresh⟩
    exact ⟨_, f, .leaf i hw, hmap, hden, fresh_cons_iff.2 ⟨hi, hfresh⟩⟩

theorem checkPasses_cons_of_internal {n : Nat} {todo seen : List NodeIdx} (hw : tag (NodeMem.read m i) = false)
    (hi : i ∉ seen) : CheckPasses m (n + 1) (i :: todo) seen ↔
      CheckPasses m n (left (NodeMem.read m i) :: right (NodeMem.read m i) :: todo) (i :: seen) := by
  have indices : ∀ l r f, nodeIndices m i (.node l r) ++ forestIndices m f =
      i :: (nodeIndices m (left (NodeMem.read m i)) l ++
        forestIndices m ((right (NodeMem.read m i), r) :: f)) := fun l r f => by
    simp [nodeIndices, forestIndices]
  rw [checkPasses_cons_iff, checkPasses_cons_iff]
  constructor
  · rintro ⟨t, f, ht, hmap, hden, hfresh⟩
    obtain ⟨l, r, rfl, hl, hr⟩ := ht.eq_node hw
    rw [indices] at hfresh
    exact ⟨l, (_, r) :: f, hl, congrArg _ hmap, List.forall_mem_cons.2 ⟨hr, hden⟩, (fresh_cons_iff.1 hfresh).2⟩
  · rintro ⟨l, f, hl, hmap, hden, hfresh⟩
    obtain ⟨⟨j, r⟩, f, rfl, rfl, rfl⟩ := List.map_eq_cons_iff.1 hmap
    rw [List.forall_mem_cons] at hden
    refine ⟨.node l r, f, .node i l r hw hl hden.1, rfl, hden.2, ?_⟩
    rw [indices]
    exact fresh_cons_iff.2 ⟨hi, hfresh⟩

theorem imageCheck_iff (n : Nat) (todo seen : List NodeIdx) :
    imageCheck m n todo seen = true ↔ CheckPasses m n todo seen := by
  induction n generalizing todo seen with
  | zero =>
    cases todo with
    | nil => exact iff_of_true rfl (checkPasses_nil 0 seen)
    | cons i todo => exact iff_of_false (by simp [imageCheck]) not_checkPasses_zero
  | succ n ih =>
    cases todo with
    | nil => exact iff_of_true rfl (checkPasses_nil _ seen)
    | cons i todo =>
      rw [imageCheck]
      by_cases hi : i ∈ seen
      · exact iff_of_false (by simp [hi]) (not_checkPasses_of_seen hi)
      · rw [if_neg (by simpa using hi)]
        cases hw : tag (NodeMem.read m i) with
        | true => exact (ih _ _).trans (checkPasses_cons_of_leaf hw hi).symm
        | false => exact (ih _ _).trans (checkPasses_cons_of_internal hw hi).symm

/-- At the root the rounds are enough as soon as no index repeats. -/
theorem checkPasses_root_iff :
    CheckPasses m Config.nnodes [i] [] ↔ ∃ t, Denotes m i t ∧ (nodeIndices m i t).Nodup := by
  rw [checkPasses_cons_iff]
  constructor
  · rintro ⟨t, f, ht, hmap, -, hnd, -, -⟩
    exact ⟨t, ht, hnd.of_append_left⟩
  · rintro ⟨t, ht, hnd⟩
    refine ⟨t, [], ht, rfl, by simp, ?_⟩
    rw [forestIndices, List.flatMap_nil, List.append_nil]
    exact ⟨hnd, by simp, length_le_nnodes_of_nodup hnd⟩

end Sys2Proof.Machine

namespace Sys2Proof

open Machine

/-- Settles O40: a path too long for the computation would visit an index twice. -/
theorem wellFormedImageDenotesOneTree : Obligations.WellFormedImageDenotesOneTree := by
  intro m h
  obtain ⟨t, ht⟩ := exists_treeAt_of_uniquePaths h
  exact ⟨t, ht, fun u => ⟨fun hu => hu.unique (denotes_of_treeAt ht), fun hu => hu ▸ denotes_of_treeAt ht⟩⟩

/-- Settles O41: both say that the pre-order of the tree's indices has no repetition. -/
theorem imageCheckDecidesWellFormed : Obligations.ImageCheckDecidesWellFormed := by
  intro m
  rw [wellFormedImage, imageCheck_iff, checkPasses_root_iff]
  constructor
  · rintro ⟨t, ht, hnd⟩
    exact (nodup_nodeIndices_iff ht).1 hnd
  · intro h
    obtain ⟨t, ht⟩ := exists_denotes_of_wellFormed h
    exact ⟨t, ht, (nodup_nodeIndices_iff ht).2 h⟩

end Sys2Proof
end

section
/-! SUPPORT. What one step shows at the two streams (spec/41_controller.md R126), and steps put together with what they
show. -/

namespace Sys2Proof.Machine

variable {s t u : State}

theorem observe_finish (hs : s.st = .atRoot) : observe s (setSt .done s) = [.stopped] := by
  simp [observe, hs]

theorem observe_start (s : State) : observe s (setSt .descending (setCursor Config.root s)) = [] := by
  simp [observe]

theorem observe_branch {b : Bit} {c : NodeIdx} (hs : s.st = .descending) (hb : s.bits[s.pos]? = some b) :
    observe s { s with pos := s.pos + 1, cursor := c } = [.bitRead b c] := by
  simp [observe, hs, hb]

theorem observe_truncate (hs : s.st = .descending) : observe s (raiseTruncatedStream s) = [.failed] := by
  simp [observe, hs]

theorem observe_recognise (s : State) : observe s (setSt .emit s) = [] := by
  simp [observe]

theorem observe_emit (x : Byte) (s : State) : observe s (emitAndRestart x s) = [.emitted x] := by
  simp [observe]

theorem observe_self (s : State) : observe s s = [] := by
  simp [observe]

/-- `k` steps from `s` lead to `t` and show the events `es`. -/
def Runs (k : Nat) (s : State) (es : List Event) (t : State) : Prop := runSteps k s = .next t ∧ runEvents k s = es

theorem Runs.refl (s : State) : Runs 0 s [] s := ⟨rfl, rfl⟩

theorem runEvents_succ (k : Nat) (h : step s = .next t) : runEvents (k + 1) s = observe s t ++ runEvents k t := by
  rw [runEvents, h]

theorem runs_one {es : List Event} (h : step s = .next t) (he : observe s t = es) : Runs 1 s es t := by
  refine ⟨runSteps_succ 0 h, ?_⟩
  rw [runEvents_succ 0 h, he]
  exact List.append_nil es

theorem runEvents_add {j : Nat} (k : Nat) (h : runSteps j s = .next t) :
    runEvents (j + k) s = runEvents j s ++ runEvents k t := by
  induction j generalizing s with
  | zero =>
    cases h
    rw [Nat.zero_add]
    rfl
  | succ j ih =>
    obtain ⟨v, hv⟩ := exists_step s
    rw [runSteps_succ j hv] at h
    rw [Nat.succ_add, runEvents_succ _ hv, runEvents_succ _ hv, ih h, List.append_assoc]

theorem Runs.trans {j k : Nat} {es fs : List Event} (h : Runs j s es t) (h' : Runs k t fs u) :
    Runs (j + k) s (es ++ fs) u := by
  refine ⟨(runSteps_add j k h.1).trans h'.1, ?_⟩
  rw [runEvents_add k h.1, h.2, h'.2]

/-- The events of fewer steps come first. -/
theorem runEvents_prefix {j k : Nat} (hjk : j ≤ k) (s : State) : runEvents j s <+: runEvents k s := by
  obtain ⟨t, ht⟩ := exists_runSteps j s
  rw [← Nat.add_sub_cancel' hjk, runEvents_add _ ht]
  exact List.prefix_append _ _

theorem runEvents_of_terminal (k : Nat) (hr : s.rst = false) (hs : s.st = .done ∨ s.st = .fault) :
    runEvents k s = [] := by
  induction k with
  | zero => rfl
  | succ k ih => rw [runEvents_succ k (step_of_terminal hr hs), ih, observe_self, List.append_nil]

/-- The last of `k + 1` steps. -/
theorem runSteps_succ_eq_next_iff (k : Nat) :
    runSteps (k + 1) s = .next t ↔ ∃ v, runSteps k s = .next v ∧ step v = .next t := by
  obtain ⟨v, hv⟩ := exists_runSteps k s
  have last : runSteps 1 v = step v := by
    obtain ⟨w, hw⟩ := exists_step v
    rw [runSteps_succ 0 hw, hw]
    rfl
  rw [runSteps_add k 1 hv, last]
  simp [hv]

theorem ended_iff (s : State) : ended s = true ↔ s.st = .done ∨ s.st = .fault := by
  simp [ended]

/-- An ended run stays where it is. -/
theorem runSteps_of_ended {j k : Nat} (h : runSteps k s = .next t) (hr : s.rst = false) (ht : ended t = true)
    (hkj : k ≤ j) : runSteps j s = .next t := by
  rw [← Nat.add_sub_cancel' hkj, runSteps_add k _ h]
  exact runSteps_of_terminal _ ((edgeFrame_of_runSteps h).rst.trans hr) ((ended_iff t).1 ht)

/-- A run ends in one way. -/
theorem eq_of_ended {j k : Nat} (ht : runSteps j s = .next t) (hu : runSteps k s = .next u) (hr : s.rst = false)
    (het : ended t = true) (heu : ended u = true) : t = u := by
  have h := (runSteps_of_ended ht hr het (Nat.le_max_left j k)).symm.trans
    (runSteps_of_ended hu hr heu (Nat.le_max_right j k))
  injection h

end Sys2Proof.Machine
end

section
/-! SUPPORT. The inner loop of the document (spec/41_controller.md R120) over a path, and the run that follows it. -/

namespace Sys2Proof.Machine

variable {m : NodeMem} {c i : NodeIdx} {p : List Bit}

theorem walk_of_leaf (h : tag (NodeMem.read m c) = true) (bits : List Bit) : walk m c bits = .atLeaf c bits := by
  cases bits <;> exact if_pos h

theorem walk_nil_of_internal (h : tag (NodeMem.read m c) = false) : walk m c [] = .truncated c :=
  if_neg (by simp [h])

theorem walk_append_of_reach (h : reach m c p = some i) (rest : List Bit) : walk m c (p ++ rest) = walk m i rest := by
  induction p generalizing c with
  | nil =>
    cases h
    rfl
  | cons b p ih =>
    obtain ⟨hw, hp⟩ := reach_cons_eq_some_iff.1 h
    exact (if_neg (by simp [hw])).trans (ih hp)

theorem walkEvents_of_leaf (h : tag (NodeMem.read m c) = true) (bits : List Bit) : walkEvents m c bits = [] := by
  cases bits with
  | nil => rfl
  | cons b bits => exact if_pos h

theorem walkEvents_cons_of_internal (h : tag (NodeMem.read m c) = false) (b : Bit) (bits : List Bit) :
    walkEvents m c (b :: bits) =
      .bitRead b (child (NodeMem.read m c) b) :: walkEvents m (child (NodeMem.read m c) b) bits :=
  if_neg (by simp [h])

/-- No bit is read past a leaf. -/
theorem walkEvents_append_of_leaf (h : reach m c p = some i) (hw : tag (NodeMem.read m i) = true) (rest : List Bit) :
    walkEvents m c (p ++ rest) = walkEvents m c p := by
  induction p generalizing c with
  | nil =>
    cases h
    rw [walkEvents_of_leaf hw, walkEvents_of_leaf hw]
  | cons b p ih =>
    obtain ⟨hc, hp⟩ := reach_cons_eq_some_iff.1 h
    rw [List.cons_append, walkEvents_cons_of_internal hc, walkEvents_cons_of_internal hc, ih hp]

/-- The bits lead to a leaf, or run out at an internal node. -/
theorem walk_cases (m : NodeMem) (c : NodeIdx) (bits : List Bit) :
    (∃ p rest i, bits = p ++ rest ∧ reach m c p = some i ∧ tag (NodeMem.read m i) = true) ∨
    (∃ i, reach m c bits = some i ∧ tag (NodeMem.read m i) = false) := by
  induction bits generalizing c with
  | nil =>
    cases hw : tag (NodeMem.read m c) with
    | true => exact .inl ⟨[], [], c, rfl, rfl, hw⟩
    | false => exact .inr ⟨c, rfl, hw⟩
  | cons b bits ih =>
    cases hw : tag (NodeMem.read m c) with
    | true => exact .inl ⟨[], _, c, rfl, rfl, hw⟩
    | false =>
      rcases ih (child (NodeMem.read m c) b) with ⟨p, rest, i, rfl, hp, hi⟩ | ⟨i, hp, hi⟩
      · exact .inl ⟨b :: p, rest, i, rfl, (reach_cons_of_internal hw b p).trans hp, hi⟩
      · exact .inr ⟨i, (reach_cons_of_internal hw b bits).trans hp, hi⟩

/-- The bits not yet read. -/
def unread (s : State) : List Bit := s.bits.drop s.pos

theorem getElem?_of_unread {s : State} {b : Bit} {rest : List Bit} (h : unread s = b :: rest) :
    s.bits[s.pos]? = some b := by
  have := congrArg (·[0]?) h
  simpa [unread] using this

/-- In Descending a path of the tree that the stream spells is followed bit by bit (R113). -/
theorem runs_descend {s : State} {rest : List Bit} (hr : s.rst = false) (hs : s.st = .descending)
    (hp : reach s.nodes s.cursor p = some i) (hbits : unread s = p ++ rest) :
    Runs p.length s (walkEvents s.nodes s.cursor p) { s with cursor := i, pos := s.pos + p.length } := by
  induction p generalizing s with
  | nil =>
    cases hp
    exact Runs.refl s
  | cons b p ih =>
    obtain ⟨hw, hp⟩ := reach_cons_eq_some_iff.1 hp
    have hb : s.bits[s.pos]? = some b := getElem?_of_unread hbits
    have first := runs_one (step_branch hr hs hw hb) (observe_branch hs hb)
    have hbits' : s.bits.drop (s.pos + 1) = p ++ rest := by
      rw [← List.drop_drop, show s.bits.drop s.pos = _ from hbits]
      rfl
    have more := first.trans (ih (s := { s with pos := s.pos + 1, cursor := child (fetch s) b }) hr hs hp hbits')
    rw [walkEvents_cons_of_internal hw, List.length_cons, Nat.add_comm p.length 1, ← Nat.add_assoc]
    exact more

end Sys2Proof.Machine
end

section
/-! SUPPORT. One round of the document's outer loop (spec/41_controller.md R120) from a symbol boundary: the end of the
stream, a symbol, or the truncation. -/

namespace Sys2Proof.Machine

variable {s : State} {p rest : List Bit} {i : NodeIdx}

/-- R112 and then a path: the bits of a symbol begun at a boundary. -/
theorem runs_from_boundary (hr : s.rst = false) (hs : s.st = .atRoot) (hn : s.pos < s.bits.length)
    (hp : reach s.nodes Config.root p = some i) (hbits : unread s = p ++ rest) :
    Runs (1 + p.length) s (walkEvents s.nodes Config.root p)
      { s with st := .descending, cursor := i, pos := s.pos + p.length } :=
  (runs_one (step_start hr hs hn) (observe_start s)).trans
    (runs_descend (s := setSt .descending (setCursor Config.root s)) hr rfl hp hbits)

/-- The boundary after the symbol of the leaf word `w` at depth `n`. -/
def afterSymbol (n : Nat) (w : NodeWord) (s : State) : State :=
  { s with st := .atRoot, cursor := Config.root, pos := s.pos + n, out := s.out ++ [sym w] }

theorem afterSymbol_of_atRoot (hs : s.st = .atRoot) (n : Nat) (w : NodeWord) :
    afterSymbol n w s = { s with cursor := Config.root, pos := s.pos + n, out := s.out ++ [sym w] } := by
  cases s
  cases hs
  rfl

/-- Emit, reached `|p| + 2` steps after a boundary. -/
theorem runs_to_emit (hr : s.rst = false) (hs : s.st = .atRoot) (hn : s.pos < s.bits.length)
    (hp : reach s.nodes Config.root p = some i) (hw : tag (NodeMem.read s.nodes i) = true)
    (hbits : unread s = p ++ rest) :
    Runs (1 + p.length + 1) s (walkEvents s.nodes Config.root p)
      { s with st := .emit, cursor := i, pos := s.pos + p.length } := by
  have recognised := runs_one (step_recognise
    (s := { s with st := .descending, cursor := i, pos := s.pos + p.length }) hr rfl hw) (observe_recognise _)
  have both := (runs_from_boundary hr hs hn hp hbits).trans recognised
  rw [List.append_nil] at both
  exact both

/-- R124: a symbol at depth `|p|`. -/
theorem runs_symbol (hr : s.rst = false) (hs : s.st = .atRoot) (hn : s.pos < s.bits.length)
    (hp : reach s.nodes Config.root p = some i) (hw : tag (NodeMem.read s.nodes i) = true)
    (hbits : unread s = p ++ rest) :
    Runs (p.length + 3) s
      (walkEvents s.nodes Config.root p ++ [.emitted (sym (NodeMem.read s.nodes i))])
      (afterSymbol p.length (NodeMem.read s.nodes i) s) := by
  have emitted := runs_one (step_emit
    (s := { s with st := .emit, cursor := i, pos := s.pos + p.length }) hr rfl) (observe_emit _ _)
  have all := (runs_to_emit hr hs hn hp hw hbits).trans emitted
  rw [show 1 + p.length + 1 + 1 = p.length + 3 by omega] at all
  exact all

/-- R121, R186: the stream runs out at an internal node. -/
theorem runs_truncated (hr : s.rst = false) (hs : s.st = .atRoot) (hn : s.pos < s.bits.length)
    (hp : reach s.nodes Config.root (unread s) = some i) (hw : tag (NodeMem.read s.nodes i) = false) :
    Runs ((unread s).length + 2) s (walkEvents s.nodes Config.root (unread s) ++ [.failed])
      { s with st := .fault, err := .truncated, cursor := i, pos := s.bits.length } := by
  have hend : s.pos + (unread s).length = s.bits.length := by
    rw [unread, List.length_drop]
    omega
  have truncated := runs_one (step_truncate
    (s := { s with st := .descending, cursor := i, pos := s.pos + (unread s).length }) hr rfl hw hend.ge)
    (observe_truncate rfl)
  have all := (runs_from_boundary hr hs hn hp (List.append_nil _).symm).trans truncated
  rw [show 1 + (unread s).length + 1 = (unread s).length + 2 by omega, hend] at all
  exact all

/-- R111. -/
theorem step_finish (hr : s.rst = false) (hs : s.st = .atRoot) (hn : s.bits.length ≤ s.pos) :
    step s = .next (setSt .done s) := by
  rw [step_of_atRoot hr hs, startOrFinish_of_empty hn]

theorem runs_finish (hr : s.rst = false) (hs : s.st = .atRoot) (hn : s.bits.length ≤ s.pos) :
    Runs 1 s [.stopped] (setSt .done s) :=
  runs_one (step_finish hr hs hn) (observe_finish hs)

end Sys2Proof.Machine
end

section
/-! SUPPORT. The symbol boundaries of a run, and the round of the loop of R120 that begins at each. -/

namespace Sys2Proof.Machine

variable {m : NodeMem} {bits p rest : List Bit} {pos n : Nat} {out : List Byte} {i : NodeIdx}

/-- A symbol boundary of the run over `m` and `bits`. -/
def State.boundary (m : NodeMem) (bits : List Bit) (pos : Nat) (out : List Byte) : State :=
  { State.launch m bits with pos := pos, out := out }

theorem boundary_zero (m : NodeMem) (bits : List Bit) : State.boundary m bits 0 [] = State.launch m bits := rfl

/-- What a round of the loop meets in the bits left: their end, the truncation, or a symbol. -/
inductive RoundCase (m : NodeMem) (bits : List Bit) : Prop where
  | finish (h : bits = [])
  | truncated (i : NodeIdx) (h : bits ≠ []) (hp : reach m Config.root bits = some i)
      (hw : tag (NodeMem.read m i) = false)
  | symbol (p rest : List Bit) (i : NodeIdx) (h : bits ≠ []) (hbits : bits = p ++ rest)
      (hp : reach m Config.root p = some i) (hw : tag (NodeMem.read m i) = true)

theorem round_cases (m : NodeMem) (bits : List Bit) : RoundCase m bits := by
  by_cases h : bits = []
  · exact .finish h
  · rcases walk_cases m Config.root bits with ⟨p, rest, i, hbits, hp, hw⟩ | ⟨i, hp, hw⟩
    · exact .symbol p rest i h hbits hp hw
    · exact .truncated i h hp hw

/-- The run over the three cases of a round. -/
theorem runs_boundary_finish (h : bits.drop pos = []) :
    Runs 1 (State.boundary m bits pos out) [.stopped] (setSt .done (State.boundary m bits pos out)) :=
  runs_finish rfl rfl (List.drop_eq_nil_iff.1 h)

theorem pos_lt_of_drop_ne_nil (h : bits.drop pos ≠ []) : pos < bits.length :=
  Nat.lt_of_not_le fun hle => h (List.drop_eq_nil_iff.2 hle)

theorem runs_boundary_truncated (h : bits.drop pos ≠ []) (hp : reach m Config.root (bits.drop pos) = some i)
    (hw : tag (NodeMem.read m i) = false) :
    Runs ((bits.drop pos).length + 2) (State.boundary m bits pos out)
      (walkEvents m Config.root (bits.drop pos) ++ [.failed])
      { State.boundary m bits pos out with st := .fault, err := .truncated, cursor := i, pos := bits.length } :=
  runs_truncated (s := State.boundary m bits pos out) rfl rfl (pos_lt_of_drop_ne_nil h) hp hw

theorem runs_boundary_symbol (h : bits.drop pos ≠ []) (hbits : bits.drop pos = p ++ rest)
    (hp : reach m Config.root p = some i) (hw : tag (NodeMem.read m i) = true) :
    Runs (p.length + 3) (State.boundary m bits pos out)
      (walkEvents m Config.root p ++ [.emitted (sym (NodeMem.read m i))])
      (State.boundary m bits (pos + p.length) (out ++ [sym (NodeMem.read m i)])) :=
  runs_symbol (s := State.boundary m bits pos out) rfl rfl (pos_lt_of_drop_ne_nil h) hp hw hbits

/-- The bits left after a symbol. -/
theorem drop_add_of_drop_eq_append (hbits : bits.drop pos = p ++ rest) : bits.drop (pos + p.length) = rest := by
  rw [← List.drop_drop, hbits, List.drop_left]

theorem walk_eq_truncated (hp : reach m Config.root bits = some i) (hw : tag (NodeMem.read m i) = false) :
    walk m Config.root bits = .truncated i := by
  rw [← List.append_nil bits, walk_append_of_reach hp, walk_nil_of_internal hw]

theorem walk_eq_atLeaf (hp : reach m Config.root p = some i) (hw : tag (NodeMem.read m i) = true) :
    walk m Config.root (p ++ rest) = .atLeaf i rest := by
  rw [walk_append_of_reach hp, walk_of_leaf hw]

/-- The loop over the three cases of a round. -/
theorem decodeLoop_nil (m : NodeMem) (n : Nat) (out : List Byte) :
    decodeLoop m n [] out = some { st := .done, out := out, cursor := Config.root } := by
  cases n <;> rfl

theorem decodeLoop_zero (h : bits ≠ []) : decodeLoop m 0 bits out = none := by
  obtain ⟨b, bs, rfl⟩ := List.exists_cons_of_ne_nil h
  rfl

theorem decodeLoop_truncated (h : bits ≠ []) (hp : reach m Config.root bits = some i)
    (hw : tag (NodeMem.read m i) = false) :
    decodeLoop m (n + 1) bits out = some { st := .fault, out := out, cursor := i } := by
  obtain ⟨b, bs, rfl⟩ := List.exists_cons_of_ne_nil h
  rw [decodeLoop, walk_eq_truncated hp hw]

theorem decodeLoop_symbol (h : p ++ rest ≠ []) (hp : reach m Config.root p = some i)
    (hw : tag (NodeMem.read m i) = true) :
    decodeLoop m (n + 1) (p ++ rest) out = decodeLoop m n rest (out ++ [sym (NodeMem.read m i)]) := by
  obtain ⟨b, bs, hcons⟩ := List.exists_cons_of_ne_nil h
  rw [hcons, decodeLoop, ← hcons, walk_eq_atLeaf hp hw]

theorem loopEvents_truncated (h : bits ≠ []) (hp : reach m Config.root bits = some i)
    (hw : tag (NodeMem.read m i) = false) :
    loopEvents m (n + 1) bits = walkEvents m Config.root bits ++ [.failed] := by
  obtain ⟨b, bs, rfl⟩ := List.exists_cons_of_ne_nil h
  rw [loopEvents, walk_eq_truncated hp hw]

theorem loopEvents_symbol (h : p ++ rest ≠ []) (hp : reach m Config.root p = some i)
    (hw : tag (NodeMem.read m i) = true) :
    loopEvents m (n + 1) (p ++ rest) =
      (walkEvents m Config.root p ++ [.emitted (sym (NodeMem.read m i))]) ++ loopEvents m n rest := by
  obtain ⟨b, bs, hcons⟩ := List.exists_cons_of_ne_nil h
  rw [hcons, loopEvents, ← hcons, walk_eq_atLeaf hp hw, walkEvents_append_of_leaf hp hw]
  simp

/-- With an internal root a symbol has at least one bit. -/
theorem length_pos_of_reach_leaf (hroot : tag (NodeMem.read m Config.root) = false)
    (hp : reach m Config.root p = some i) (hw : tag (NodeMem.read m i) = true) : 0 < p.length := by
  cases p with
  | nil =>
    cases hp
    exact Bool.noConfusion (hroot.symm.trans hw)
  | cons b p => exact Nat.succ_pos _

end Sys2Proof.Machine
end

section
/-! SUPPORT. Runs against the loop of the document: results, events and step counts (spec/41_controller.md R120 to
R126). -/

namespace Sys2Proof.Machine

variable {m : NodeMem} {bits : List Bit} {pos : Nat} {out : List Byte}

theorem result_eq_some_iff (t : State) (r : RunEnd) :
    result t = some r ↔ ended t = true ∧ r = { st := t.st, out := t.out, cursor := t.cursor } := by
  unfold result
  cases ended t with
  | true => simp [eq_comm]
  | false => simp

/-- Round by round the run follows the loop to its end. -/
theorem exists_run_of_decodeLoop {n : Nat} {r : RunEnd} (h : decodeLoop m n (bits.drop pos) out = some r) :
    ∃ k t, runSteps k (State.boundary m bits pos out) = .next t ∧ result t = some r := by
  induction n generalizing pos out with
  | zero =>
    by_cases hbits : bits.drop pos = []
    · rw [hbits, decodeLoop_nil] at h
      exact ⟨1, _, (runs_boundary_finish hbits).1, h⟩
    · rw [decodeLoop_zero hbits] at h
      cases h
  | succ n ih =>
    cases round_cases m (bits.drop pos) with
    | finish hbits =>
      rw [hbits, decodeLoop_nil] at h
      exact ⟨1, _, (runs_boundary_finish hbits).1, h⟩
    | truncated i hne hp hw =>
      rw [decodeLoop_truncated hne hp hw] at h
      exact ⟨_, _, (runs_boundary_truncated hne hp hw).1, h⟩
    | symbol p rest i hne hbits hp hw =>
      rw [hbits, decodeLoop_symbol (hbits ▸ hne) hp hw, ← drop_add_of_drop_eq_append hbits] at h
      obtain ⟨k, t, hrun, hres⟩ := ih h
      exact ⟨_, t, (runSteps_add _ k (runs_boundary_symbol hne hbits hp hw).1).trans hrun, hres⟩

/-- A run that ends does not end before the next boundary it reaches. -/
theorem le_of_ended {j k pos' : Nat} {out' : List Byte} {t : State}
    (hj : runSteps j (State.boundary m bits pos out) = .next (State.boundary m bits pos' out'))
    (hk : runSteps k (State.boundary m bits pos out) = .next t) (ht : ended t = true) : j ≤ k := by
  by_contra hlt
  have hstay := runSteps_of_ended hk rfl ht (Nat.le_of_not_le hlt)
  rw [hj] at hstay
  injection hstay with heq
  rw [← heq] at ht
  exact Bool.noConfusion ht

/-- An ended run went through the rounds of the loop. -/
theorem exists_decodeLoop_of_run {k : Nat} {t : State} {r : RunEnd}
    (hrun : runSteps k (State.boundary m bits pos out) = .next t) (hres : result t = some r) :
    ∃ n, decodeLoop m n (bits.drop pos) out = some r := by
  obtain ⟨hend, hr⟩ := (result_eq_some_iff t r).1 hres
  subst hr
  induction k using Nat.strongRecOn generalizing pos out with
  | ind k ih =>
    cases round_cases m (bits.drop pos) with
    | finish hbits =>
      have ht := eq_of_ended (runs_boundary_finish hbits).1 hrun rfl rfl hend
      subst ht
      exact ⟨0, by rw [hbits, decodeLoop_nil]; rfl⟩
    | truncated i hne hp hw =>
      have ht := eq_of_ended (runs_boundary_truncated hne hp hw).1 hrun rfl rfl hend
      subst ht
      exact ⟨1, decodeLoop_truncated hne hp hw⟩
    | symbol p rest i hne hbits hp hw =>
      have round := (runs_boundary_symbol (out := out) hne hbits hp hw).1
      have hle := le_of_ended round hrun hend
      rw [← Nat.add_sub_cancel' hle, runSteps_add _ _ round] at hrun
      obtain ⟨n, hn⟩ := ih _ (by omega) hrun
      rw [drop_add_of_drop_eq_append hbits] at hn
      exact ⟨n + 1, by rw [hbits, decodeLoop_symbol (hbits ▸ hne) hp hw, hn]⟩

/-- The events of the loop's rounds are those of some number of steps. -/
theorem exists_steps_of_loopEvents (n : Nat) :
    ∃ k, runEvents k (State.boundary m bits pos out) = loopEvents m n (bits.drop pos) := by
  induction n generalizing pos out with
  | zero => exact ⟨0, by simp [runEvents, loopEvents]⟩
  | succ n ih =>
    cases round_cases m (bits.drop pos) with
    | finish hbits => exact ⟨1, by rw [(runs_boundary_finish hbits).2, hbits, loopEvents]⟩
    | truncated i hne hp hw =>
      exact ⟨_, (runs_boundary_truncated hne hp hw).2.trans (loopEvents_truncated hne hp hw).symm⟩
    | symbol p rest i hne hbits hp hw =>
      have round := runs_boundary_symbol (out := out) hne hbits hp hw
      obtain ⟨k, hk⟩ := ih (pos := pos + p.length) (out := out ++ [sym (NodeMem.read m i)])
      rw [drop_add_of_drop_eq_append hbits] at hk
      refine ⟨p.length + 3 + k, ?_⟩
      rw [runEvents_add k round.1, round.2, hk, hbits, loopEvents_symbol (hbits ▸ hne) hp hw]

/-- The events of an ended run are all there are. -/
theorem runEvents_prefix_of_ended {j : Nat} {s t : State} {es : List Event} (h : Runs j s es t) (hr : s.rst = false)
    (ht : ended t = true) (k : Nat) : runEvents k s <+: es := by
  have more : runEvents (j + k) s = es := by
    rw [runEvents_add k h.1, h.2,
      runEvents_of_terminal k ((edgeFrame_of_runSteps h.1).rst.trans hr) ((ended_iff t).1 ht), List.append_nil]
  exact more ▸ runEvents_prefix (Nat.le_add_left k j) s

/-- The events of any number of steps come first among those of enough rounds. -/
theorem exists_rounds_of_runEvents (k : Nat) :
    ∃ n, runEvents k (State.boundary m bits pos out) <+: loopEvents m n (bits.drop pos) := by
  induction k using Nat.strongRecOn generalizing pos out with
  | ind k ih =>
    cases round_cases m (bits.drop pos) with
    | finish hbits =>
      refine ⟨1, ?_⟩
      rw [hbits, loopEvents]
      exact runEvents_prefix_of_ended (runs_boundary_finish hbits) rfl rfl k
    | truncated i hne hp hw =>
      refine ⟨1, ?_⟩
      rw [loopEvents_truncated hne hp hw]
      exact runEvents_prefix_of_ended (runs_boundary_truncated hne hp hw) rfl rfl k
    | symbol p rest i hne hbits hp hw =>
      have round := runs_boundary_symbol (out := out) hne hbits hp hw
      rcases Nat.le_total (p.length + 3) k with hle | hle
      · obtain ⟨n, hn⟩ := ih (k - (p.length + 3)) (by omega) (pos := pos + p.length)
          (out := out ++ [sym (NodeMem.read m i)])
        rw [drop_add_of_drop_eq_append hbits] at hn
        refine ⟨n + 1, ?_⟩
        rw [← Nat.add_sub_cancel' hle, runEvents_add _ round.1, round.2, hbits,
          loopEvents_symbol (hbits ▸ hne) hp hw]
        exact (List.prefix_append_right_inj _).2 hn
      · refine ⟨1, ?_⟩
        rw [hbits, loopEvents_symbol (hbits ▸ hne) hp hw, ← round.2]
        exact (runEvents_prefix hle _).trans (List.prefix_append _ _)

/-- R122: with an internal root a round of `n` bits takes at most `n + 3` steps, and reads at least one. -/
theorem exists_ended_within (hroot : tag (NodeMem.read m Config.root) = false) :
    ∃ k t, k ≤ 4 * (bits.drop pos).length + 1 ∧ runSteps k (State.boundary m bits pos out) = .next t ∧
      ended t = true := by
  induction hlen : (bits.drop pos).length using Nat.strongRecOn generalizing pos out with
  | ind len ih =>
    cases round_cases m (bits.drop pos) with
    | finish hbits => exact ⟨1, _, by omega, (runs_boundary_finish hbits).1, rfl⟩
    | truncated i hne hp hw =>
      have := List.length_pos_of_ne_nil hne
      exact ⟨_, _, by omega, (runs_boundary_truncated hne hp hw).1, rfl⟩
    | symbol p rest i hne hbits hp hw =>
      have hpos := length_pos_of_reach_leaf hroot hp hw
      have hsum : p.length + rest.length = len := by rw [← hlen, hbits, List.length_append]
      obtain ⟨k, t, hk, hrun, ht⟩ := ih rest.length (by omega) (pos := pos + p.length)
        (out := out ++ [sym (NodeMem.read m i)]) (by rw [drop_add_of_drop_eq_append hbits])
      exact ⟨p.length + 3 + k, t, by omega,
        (runSteps_add _ k (runs_boundary_symbol hne hbits hp hw).1).trans hrun, ht⟩

end Sys2Proof.Machine

namespace Sys2Proof

open Machine

/-- Settles O31. -/
theorem symbolTakesDepthPlusThreeSteps : Obligations.SymbolTakesDepthPlusThreeSteps := by
  intro s p i hr hs hn hp hw hpre
  obtain ⟨rest, hrest⟩ := hpre
  rw [(runs_symbol hr hs hn hp hw hrest.symm).1, afterSymbol_of_atRoot hs]

/-- Settles O36, round by round in both directions. -/
theorem runRefinesDocumentLoop : Obligations.RunRefinesDocumentLoop := fun m bits _ =>
  ⟨fun ⟨_, hn⟩ => exists_run_of_decodeLoop (bits := bits) (pos := 0) hn,
    fun ⟨_, _, hrun, hres⟩ => exists_decodeLoop_of_run (m := m) (bits := bits) (pos := 0) (out := []) hrun hres⟩

/-- Settles O37, round by round in both directions. -/
theorem runEventsAreLoopEvents : Obligations.RunEventsAreLoopEvents := fun m bits =>
  ⟨exists_steps_of_loopEvents (m := m) (bits := bits) (pos := 0) (out := []),
    exists_rounds_of_runEvents (m := m) (bits := bits) (pos := 0) (out := [])⟩

/-- Settles O29. -/
theorem runsTerminateWithinBound : Obligations.RunsTerminateWithinBound := by
  refine ⟨fun m bits hroot => exists_ended_within (bits := bits) (pos := 0) (out := []) hroot,
    fun m _ => (runs_boundary_finish (m := m) (bits := []) (pos := 0) (out := []) rfl).1,
    fun m bits k t hroot hbits hrun => ?_⟩
  obtain ⟨-, -, hdone, hfault, -⟩ := (singleLeafRunNeverEnds m bits hroot hbits).2 k t hrun
  rw [← Bool.not_eq_true, ended_iff]
  exact not_or.2 ⟨hdone, hfault⟩

end Sys2Proof
end

section
/-! SUPPORT. Runs over code words (spec/41_controller.md R125; spec/20_memory.md R56). -/

namespace Sys2Proof.Machine

section CodeWords

variable {m : NodeMem} {t : CodeTree} (hden : Denotes m Config.root t)
  (hroot : tag (NodeMem.read m Config.root) = false) {bits rest : List Bit} {pos : Nat} {out : List Byte}

include hden hroot

/-- A code word of the denoted tree at the front of the stream. -/
theorem runs_codeWord {c : CodeWord} (hc : c ∈ t.leaves) (hbits : bits.drop pos = c.1 ++ rest) :
    ∃ es, Runs (c.1.length + 3) (State.boundary m bits pos out) es
      (State.boundary m bits (pos + c.1.length) (out ++ [c.2])) := by
  obtain ⟨i, hp, hw, hsym⟩ := reach_of_mem_leaves hden hc
  have hne : bits.drop pos ≠ [] := by
    rw [hbits]
    exact List.append_ne_nil_of_left_ne_nil (path_ne_nil_of_internal hden hroot hc) rest
  exact ⟨_, hsym ▸ runs_boundary_symbol hne hbits hp hw⟩

/-- R125, R124: code words one after another. -/
theorem runSteps_codeWords {xs : List CodeWord} (hxs : ∀ c ∈ xs, c ∈ t.leaves)
    (hbits : bits.drop pos = xs.flatMap Prod.fst ++ rest) :
    runSteps ((xs.flatMap Prod.fst).length + 3 * xs.length) (State.boundary m bits pos out) =
      .next (State.boundary m bits (pos + (xs.flatMap Prod.fst).length) (out ++ xs.map Prod.snd)) := by
  induction xs generalizing pos out with
  | nil => simp [runSteps]
  | cons c xs ih =>
    rw [List.forall_mem_cons] at hxs
    rw [List.flatMap_cons, List.append_assoc] at hbits
    obtain ⟨es, first⟩ := runs_codeWord (out := out) hden hroot hxs.1 hbits
    have more := (runSteps_add _ _ first.1).trans (ih hxs.2 (drop_add_of_drop_eq_append hbits))
    have count : c.1.length + 3 + ((xs.flatMap Prod.fst).length + 3 * xs.length) =
        ((c :: xs).flatMap Prod.fst).length + 3 * (c :: xs).length := by
      simp only [List.flatMap_cons, List.length_append, List.length_cons]
      omega
    rw [count] at more
    rw [more]
    simp [Nat.add_assoc]

/-- R125, first half. -/
theorem runSteps_codeWords_done {xs : List CodeWord} (hxs : ∀ c ∈ xs, c ∈ t.leaves) :
    runSteps ((xs.flatMap Prod.fst).length + 3 * xs.length + 1) (State.launch m (xs.flatMap Prod.fst)) =
      .next { State.launch m (xs.flatMap Prod.fst) with
        st := .done, pos := (xs.flatMap Prod.fst).length, out := xs.map Prod.snd } := by
  have words := runSteps_codeWords (bits := xs.flatMap Prod.fst) (pos := 0) (out := []) (rest := []) hden hroot hxs
    (List.append_nil _).symm
  rw [Nat.zero_add, boundary_zero] at words
  rw [runSteps_add _ 1 words, (runs_boundary_finish List.drop_length).1]
  rfl

/-- R125, second half, with R186's count. -/
theorem runSteps_codeWords_truncated {xs : List CodeWord} {p : List Bit} {i : NodeIdx} (hxs : ∀ c ∈ xs, c ∈ t.leaves)
    (hne : p ≠ []) (hp : reach m Config.root p = some i) (hw : tag (NodeMem.read m i) = false) :
    runSteps ((xs.flatMap Prod.fst ++ p).length + 3 * xs.length + 2) (State.launch m (xs.flatMap Prod.fst ++ p)) =
      .next { State.launch m (xs.flatMap Prod.fst ++ p) with
        st := .fault, err := .truncated, cursor := i, pos := (xs.flatMap Prod.fst ++ p).length,
        out := xs.map Prod.snd } := by
  have words := runSteps_codeWords (bits := xs.flatMap Prod.fst ++ p) (pos := 0) (out := []) (rest := p) hden hroot hxs
    rfl
  rw [Nat.zero_add, boundary_zero] at words
  have left : (xs.flatMap Prod.fst ++ p).drop (xs.flatMap Prod.fst).length = p := List.drop_left
  have fault := (runs_boundary_truncated (m := m) (bits := xs.flatMap Prod.fst ++ p)
    (pos := (xs.flatMap Prod.fst).length) (out := [] ++ xs.map Prod.snd) (i := i) (by rwa [left]) (by rwa [left]) hw).1
  rw [left] at fault
  have count : (xs.flatMap Prod.fst ++ p).length + 3 * xs.length + 2 =
      (xs.flatMap Prod.fst).length + 3 * xs.length + (p.length + 2) := by
    rw [List.length_append]
    omega
  rw [count, runSteps_add _ _ words, fault]
  rfl

end CodeWords

/-- Between two boundaries Emit is seen once, with the bits of the symbol read and its byte not yet out. -/
theorem emit_within_symbol {m : NodeMem} {bits p rest : List Bit} {pos j : Nat} {out : List Byte} {i : NodeIdx}
    {s : State} (hne : bits.drop pos ≠ []) (hbits : bits.drop pos = p ++ rest) (hp : reach m Config.root p = some i)
    (hw : tag (NodeMem.read m i) = true) (hj : j < p.length + 3)
    (hrun : runSteps j (State.boundary m bits pos out) = .next s) (hs : s.st = .emit) :
    s.out = out ∧ s.pos = pos + p.length := by
  have hlt := pos_lt_of_drop_ne_nil hne
  rcases Nat.eq_zero_or_pos j with rfl | hj0
  · cases hrun
    cases hs
  · rcases Nat.lt_or_ge j (p.length + 2) with hj2 | hj2
    · have hlen : (p.take (j - 1)).length = j - 1 := List.length_take_of_le (by omega)
      obtain ⟨c, hc⟩ := Option.isSome_iff_exists.1
        (reach_isSome_of_prefix (List.take_prefix (j - 1) p) (Option.isSome_iff_exists.2 ⟨i, hp⟩))
      have walking := (runs_from_boundary (s := State.boundary m bits pos out) (rest := p.drop (j - 1) ++ rest) rfl rfl
        hlt hc (by rw [← List.append_assoc, List.take_append_drop]; exact hbits)).1
      rw [hlen, Nat.add_sub_cancel' hj0, hrun] at walking
      cases walking
      cases hs
    · have emitting := (runs_to_emit (s := State.boundary m bits pos out) rfl rfl hlt hp hw hbits).1
      rw [show 1 + p.length + 1 = j by omega, hrun] at emitting
      cases emitting
      exact ⟨rfl, rfl⟩

/-- R56: Emit is seen only between the boundaries of a code word `x`, with the symbols of the words before it out. -/
theorem emit_position {m : NodeMem} {t : CodeTree} (hden : Denotes m Config.root t)
    (hroot : tag (NodeMem.read m Config.root) = false) {xs : List CodeWord} (hxs : ∀ c ∈ xs, c ∈ t.leaves)
    {bits : List Bit} {pos n : Nat} {out : List Byte} (hbits : bits.drop pos = xs.flatMap Prod.fst) {s : State}
    (hrun : runSteps n (State.boundary m bits pos out) = .next s) (hs : s.st = .emit) :
    ∃ ys x zs, xs = ys ++ x :: zs ∧ s.out = out ++ ys.map Prod.snd ∧
      s.pos = pos + ((ys ++ [x]).flatMap Prod.fst).length := by
  induction xs generalizing pos n out with
  | nil =>
    have finish := (runs_boundary_finish (m := m) (out := out) hbits).1
    cases n with
    | zero =>
      cases hrun
      cases hs
    | succ n =>
      rw [runSteps_of_ended finish rfl rfl (Nat.succ_pos n)] at hrun
      cases hrun
      cases hs
  | cons x xs ih =>
    rw [List.forall_mem_cons] at hxs
    rw [List.flatMap_cons] at hbits
    rcases Nat.lt_or_ge n (x.1.length + 3) with hn | hn
    · obtain ⟨i, hp, hw, -⟩ := reach_of_mem_leaves hden hxs.1
      have hne : bits.drop pos ≠ [] := by
        rw [hbits]
        exact List.append_ne_nil_of_left_ne_nil (path_ne_nil_of_internal hden hroot hxs.1) _
      obtain ⟨hout, hpos⟩ := emit_within_symbol hne hbits hp hw hn hrun hs
      exact ⟨[], x, xs, rfl, by simp [hout], by simp [hpos]⟩
    · obtain ⟨es, first⟩ := runs_codeWord (out := out) hden hroot hxs.1 hbits
      rw [← Nat.add_sub_cancel' hn, runSteps_add _ _ first.1] at hrun
      obtain ⟨ys, y, zs, rfl, hout, hpos⟩ := ih hxs.2 (drop_add_of_drop_eq_append hbits) hrun
      exact ⟨x :: ys, y, zs, rfl, by simp [hout], by simp [hpos, Nat.add_assoc]⟩

end Sys2Proof.Machine

namespace Sys2Proof

open Machine

/-- Settles O32. -/
theorem codeWordsDecodeToTheirSymbols : Obligations.CodeWordsDecodeToTheirSymbols := by
  intro m hm hroot
  obtain ⟨t, ht⟩ := exists_denotes_of_wellFormed hm
  exact ⟨t, ht, fun xs hxs => runSteps_codeWords_done ht hroot hxs⟩

/-- Settles O33: a proper initial segment of a code word ends at an internal node, where the stream runs out. -/
theorem truncatedStreamEndsInFault : Obligations.TruncatedStreamEndsInFault := by
  intro m hm hroot
  obtain ⟨t, ht⟩ := exists_denotes_of_wellFormed hm
  refine ⟨t, ht, fun xs c p hxs hc hp hpc hp0 => ?_⟩
  obtain ⟨i, hi, hw⟩ := reach_of_proper_prefix ht hc hp hpc
  exact ⟨i, hi, hw, runSteps_codeWords_truncated ht hroot hxs hp0 hi hw⟩

/-- Settles O35. -/
theorem byteFollowsItsCodeWord : Obligations.ByteFollowsItsCodeWord := by
  intro m t xs hden hroot hxs n s hrun hs
  obtain ⟨ys, x, zs, rfl, hout, hpos⟩ := emit_position (pos := 0) (out := []) hden hroot hxs rfl hrun hs
  rw [List.nil_append] at hout
  have count : s.out.length = ys.length := by rw [hout, List.length_map]
  have taken : (ys ++ x :: zs).take (ys.length + 1) = ys ++ [x] := by simp [List.take_append]
  rw [count, taken, List.take_left]
  exact ⟨by simp, hpos.trans (Nat.zero_add _), hout⟩

end Sys2Proof
end

section
/-! SUPPORT. The last symbol boundary before a configuration of a run (spec/41_controller.md R121; spec/10_state.md R29
item 4). -/

namespace Sys2Proof.Machine

variable {s u v t : State} {j k : Nat}

/-- `u`, after `j` steps from `s`, is the last symbol boundary before the configuration `t` after `k` steps. -/
structure LastBoundary (s : State) (k : Nat) (t : State) (j : Nat) (u : State) : Prop where
  le : j ≤ k
  run : runSteps j s = .next u
  st : u.st = .atRoot
  out : u.out = t.out
  pos_le : u.pos ≤ t.pos
  last : ∀ n v, j < n → n ≤ k → runSteps n s = .next v → v.st ≠ .atRoot

/-- A boundary is the last one before itself. -/
theorem LastBoundary.self (h : runSteps k s = .next t) (hs : t.st = .atRoot) : LastBoundary s k t k t :=
  ⟨Nat.le_refl k, h, hs, rfl, Nat.le_refl _, fun _ _ hlt hle => absurd hle (Nat.not_le.2 hlt)⟩

/-- It stays the last one over a step that reaches no boundary and emits nothing. -/
theorem LastBoundary.extend (h : LastBoundary s k v j u) (hrun : runSteps (k + 1) s = .next t) (hs : t.st ≠ .atRoot)
    (hout : t.out = v.out) (hpos : v.pos ≤ t.pos) : LastBoundary s (k + 1) t j u where
  le := h.le.trans (Nat.le_succ k)
  run := h.run
  st := h.st
  out := h.out.trans hout.symm
  pos_le := h.pos_le.trans hpos
  last := fun n w hjn hnk hw => by
    rcases Nat.le_succ_iff.1 hnk with hn | rfl
    · exact h.last n w hjn hn hw
    · rw [hrun] at hw
      cases hw
      exact hs

/-- What is known of the bits read since the last boundary: with none read the controller has just found one. -/
def MidSymbol (u t : State) : Prop :=
  (t.st = .descending → u.pos < t.pos ∨ t.pos < t.bits.length) ∧ (t.st = .fault → u.pos < t.pos)

theorem MidSymbol.of_st (hd : t.st ≠ .descending) (hf : t.st ≠ .fault) : MidSymbol u t :=
  ⟨fun h => absurd h hd, fun h => absurd h hf⟩

theorem exists_lastBoundary (hr : s.rst = false) (hs : s.st = .atRoot) (h : runSteps k s = .next t) :
    ∃ j u, LastBoundary s k t j u ∧ MidSymbol u t := by
  induction k generalizing t with
  | zero =>
    cases h
    exact ⟨0, s, .self rfl hs, .of_st (by simp [hs]) (by simp [hs])⟩
  | succ k ih =>
    obtain ⟨v, hv, hstep⟩ := (runSteps_succ_eq_next_iff k).1 h
    obtain ⟨j, u, hlast, hmid⟩ := ih hv
    have hrv : v.rst = false := (edgeFrame_of_runSteps hv).rst.trans hr
    cases step_cases hstep with
    | reset hr' ht => exact Bool.noConfusion (hrv.symm.trans hr')
    | finish _ hs hn ht =>
      subst ht
      exact ⟨j, u, hlast.extend h (by simp) rfl (Nat.le_refl _), .of_st (by simp) (by simp)⟩
    | start _ hs hn ht =>
      subst ht
      exact ⟨j, u, hlast.extend h (by simp) rfl (Nat.le_refl _), fun _ => .inr hn, by simp⟩
    | branch _ hs hw b hb ht =>
      subst ht
      exact ⟨j, u, hlast.extend h (by simp [hs]) rfl (Nat.le_succ _), fun _ => .inl (Nat.lt_succ_of_le hlast.pos_le),
        by simp [hs]⟩
    | truncate _ hs hw hn ht =>
      subst ht
      have read : u.pos < v.pos := (hmid.1 hs).resolve_right (Nat.not_lt.2 hn)
      exact ⟨j, u, hlast.extend h (by simp) rfl (Nat.le_refl _), by simp, fun _ => read⟩
    | recognise _ hs hw ht =>
      subst ht
      exact ⟨j, u, hlast.extend h (by simp) rfl (Nat.le_refl _), .of_st (by simp) (by simp)⟩
    | emit _ hs ht =>
      subst ht
      exact ⟨k + 1, _, .self h rfl, .of_st (by simp) (by simp)⟩
    | stay _ hs ht =>
      subst ht
      have terminal : t.st ≠ .atRoot := by rcases hs with hs | hs <;> simp [hs]
      exact ⟨j, u, hlast.extend h terminal rfl (Nat.le_refl _), hmid⟩

end Sys2Proof.Machine

namespace Sys2Proof

open Machine

/-- Settles O28: the bit tested in AtRoot is still there when Descending meets the internal root, so a truncation comes
after a branch. -/
theorem truncationIsMidSymbol : Obligations.TruncationIsMidSymbol := by
  refine ⟨fun s hr hs hn hw => ?_, fun m bits k t hrun hf => ?_⟩
  · have first : unread s = [s.bits[s.pos]] ++ s.bits.drop (s.pos + 1) := List.drop_eq_getElem_cons hn
    exact ⟨_, (runs_from_boundary hr hs hn (reach_cons_of_internal hw _ []) first).1, rfl, rfl⟩
  · obtain ⟨j, u, hlast, hmid⟩ := exists_lastBoundary (launch_rst m bits) (launch_st m bits) hrun
    have hne : j ≠ k := by
      rintro rfl
      have hst := hlast.st
      have heq := hlast.run.symm.trans hrun
      cases heq
      rw [hf] at hst
      cases hst
    exact ⟨j, u, Nat.lt_of_le_of_ne hlast.le hne, hlast.run, hlast.st, hmid.2 hf, hlast.out, hlast.last⟩

end Sys2Proof
end

section
/-! SUPPORT. A step depends on node memory only through the word under the cursor, so that a run depends only on the
reachable words (spec/20_memory.md R44) and, the cursor apart, on the denoted tree (spec/41_controller.md R125). -/

namespace Sys2Proof.Machine

variable {m n : NodeMem} {c : NodeIdx} {u t : State}

/-- How a step with reset released moves the cursor (R22). -/
inductive CursorMove where
  | stay
  | toRoot
  | branch (b : Bit)

/-- The index a move leads to from `c` over the word `w`. -/
def CursorMove.target (w : NodeWord) (c : NodeIdx) : CursorMove → NodeIdx
  | .stay => c
  | .toRoot => Config.root
  | .branch b => child w b

/-- Over another memory and from another cursor a step does the same, as long as the tag in Descending and the symbol in
Emit agree; and it moves the cursor in the same way. -/
theorem step_of_same_word (hr : u.rst = false) (hstep : step u = .next t)
    (hdesc : u.st = .descending → tag (NodeMem.read n c) = tag (fetch u))
    (hemit : u.st = .emit → sym (NodeMem.read n c) = sym (fetch u)) :
    ∃ mv : CursorMove, t.cursor = mv.target (fetch u) u.cursor ∧ (∀ b, mv = .branch b → tag (fetch u) = false) ∧
      (t.st = .emit → t.cursor = u.cursor ∧ tag (fetch u) = true) ∧
      step { u with nodes := n, cursor := c } =
        .next { t with nodes := n, cursor := mv.target (NodeMem.read n c) c } := by
  cases step_cases hstep with
  | reset hr' ht => exact Bool.noConfusion (hr.symm.trans hr')
  | finish _ hs hn ht =>
    subst ht
    exact ⟨.stay, rfl, by simp, by simp, step_finish hr hs hn⟩
  | start _ hs hn ht =>
    subst ht
    exact ⟨.toRoot, rfl, by simp, by simp, step_start hr hs hn⟩
  | branch _ hs hw b hb ht =>
    subst ht
    exact ⟨.branch b, rfl, fun _ _ => hw, by simp [hs], step_branch hr hs ((hdesc hs).trans hw) hb⟩
  | truncate _ hs hw hn ht =>
    subst ht
    exact ⟨.stay, rfl, by simp, by simp, step_truncate hr hs ((hdesc hs).trans hw) hn⟩
  | recognise _ hs hw ht =>
    subst ht
    exact ⟨.stay, rfl, by simp, fun _ => ⟨rfl, hw⟩, step_recognise hr hs ((hdesc hs).trans hw)⟩
  | emit _ hs ht =>
    subst ht
    refine ⟨.toRoot, rfl, by simp, by simp, ?_⟩
    rw [← hemit hs]
    exact step_emit hr hs
  | stay _ hs ht =>
    subst ht
    refine ⟨.stay, rfl, by simp, fun h => ?_, step_of_terminal hr hs⟩
    rcases hs with hs | hs <;> cases hs.symm.trans h

/-- A relation that every step keeps is kept by any number of steps. -/
theorem exists_runSteps_of_simulation {R : State → State → Prop}
    (hR : ∀ {u v t}, R u v → step u = .next t → ∃ w, step v = .next w ∧ R t w) (k : Nat) {u v : State} (h : R u v) :
    ∃ t w, runSteps k u = .next t ∧ runSteps k v = .next w ∧ R t w := by
  induction k generalizing u v with
  | zero => exact ⟨u, v, rfl, rfl, h⟩
  | succ k ih =>
    obtain ⟨u', hu⟩ := exists_step u
    obtain ⟨v', hv, h'⟩ := hR h hu
    obtain ⟨t, w, ht, hw, htw⟩ := ih h'
    exact ⟨t, w, (runSteps_succ k hu).trans ht, (runSteps_succ k hv).trans hw, htw⟩

/-- One run over two memories, its cursor on a node reached from the root of `m`. -/
structure OnReachedNode (m n : NodeMem) (u v : State) : Prop where
  rst : u.rst = false
  nodes : u.nodes = m
  reached : ∃ p, reach m Config.root p = some u.cursor
  other : v = { u with nodes := n }

/-- The step over a memory that agrees on the reached words. -/
theorem OnReachedNode.step {v : State}
    (hagree : ∀ p i, reach m Config.root p = some i → NodeMem.read m i = NodeMem.read n i)
    (h : OnReachedNode m n u v) (hstep : step u = .next t) : ∃ w, Machine.step v = .next w ∧ OnReachedNode m n t w := by
  obtain ⟨hr, rfl, ⟨p, hp⟩, rfl⟩ := h
  have word : NodeMem.read n u.cursor = fetch u := (hagree p _ hp).symm
  have frame := edgeFrame_of_step hstep
  obtain ⟨mv, hcur, hbranch, -, hnext⟩ := step_of_same_word (n := n) (c := u.cursor) hr hstep
    (fun _ => congrArg tag word) (fun _ => congrArg sym word)
  rw [word, ← hcur] at hnext
  refine ⟨_, hnext, frame.rst.trans hr, frame.nodes, ?_, rfl⟩
  cases mv with
  | stay => exact ⟨p, hcur ▸ hp⟩
  | toRoot => exact ⟨[], hcur ▸ rfl⟩
  | branch b => exact ⟨p ++ [b], hcur ▸ reach_concat hp (hbranch b rfl) b⟩

/-- One run over two images, the cursors on one subtree. -/
structure SameSubtree (m n : NodeMem) (u v : State) : Prop where
  rst : u.rst = false
  nodes : u.nodes = m
  subtree : ∃ c x, v = { u with nodes := n, cursor := c } ∧ Denotes m u.cursor x ∧ Denotes n c x
  emit_leaf : u.st = .emit → tag (fetch u) = true

/-- One subtree has one tag at its root. -/
theorem Denotes.tag_eq {i : NodeIdx} {x : CodeTree} (hm : Denotes m i x) (hn : Denotes n c x) :
    tag (NodeMem.read n c) = tag (NodeMem.read m i) := by
  cases hm with
  | leaf _ hw =>
    rw [hw]
    by_contra h
    obtain ⟨l, r, hx, -, -⟩ := hn.eq_node (by simpa using h)
    cases hx
  | node _ l r hw _ _ =>
    rw [hw]
    by_contra h
    cases hn.eq_leaf (by simpa using h)

/-- One leaf has one symbol. -/
theorem Denotes.sym_eq {i : NodeIdx} {x : CodeTree} (hm : Denotes m i x) (hn : Denotes n c x)
    (hw : tag (NodeMem.read m i) = true) : sym (NodeMem.read n c) = sym (NodeMem.read m i) := by
  have hx := (hm.eq_leaf hw).symm.trans (hn.eq_leaf ((hm.tag_eq hn).trans hw))
  injection hx with hs
  exact hs.symm

/-- One subtree has the same children. -/
theorem Denotes.child {i : NodeIdx} {x : CodeTree} (hm : Denotes m i x) (hn : Denotes n c x)
    (hw : tag (NodeMem.read m i) = false) (b : Bit) :
    ∃ y, Denotes m (Machine.child (NodeMem.read m i) b) y ∧ Denotes n (Machine.child (NodeMem.read n c) b) y := by
  obtain ⟨l, r, rfl, hml, hmr⟩ := hm.eq_node hw
  obtain ⟨l', r', hx, hnl, hnr⟩ := hn.eq_node ((hm.tag_eq hn).trans hw)
  cases hx
  cases b with
  | false => exact ⟨l, hml, hnl⟩
  | true => exact ⟨r, hmr, hnr⟩

/-- The step over another image of the tree. -/
theorem SameSubtree.step {x : CodeTree} {v : State} (hm : Denotes m Config.root x) (hn : Denotes n Config.root x)
    (h : SameSubtree m n u v) (hstep : step u = .next t) : ∃ w, Machine.step v = .next w ∧ SameSubtree m n t w := by
  obtain ⟨hr, rfl, ⟨c, y, rfl, hmy, hny⟩, hleaf⟩ := h
  have frame := edgeFrame_of_step hstep
  obtain ⟨mv, hcur, hbranch, hemit, hnext⟩ := step_of_same_word (n := n) (c := c) hr hstep
    (fun _ => hmy.tag_eq hny) (fun hs => hmy.sym_eq hny (hleaf hs))
  refine ⟨_, hnext, frame.rst.trans hr, frame.nodes, ?_, fun hs => ?_⟩
  · cases mv with
    | stay => exact ⟨_, y, rfl, hcur ▸ hmy, hny⟩
    | toRoot => exact ⟨_, x, rfl, hcur ▸ hm, hn⟩
    | branch b =>
      obtain ⟨z, hmz, hnz⟩ := hmy.child hny (hbranch b rfl) b
      exact ⟨_, z, rfl, hcur ▸ hmz, hnz⟩
  · obtain ⟨hc, hw⟩ := hemit hs
    rw [fetch, frame.nodes, hc]
    exact hw

end Sys2Proof.Machine

namespace Sys2Proof

open Machine

/-- Settles O39: the cursor never leaves the reachable nodes. -/
theorem unreachableWordsAreNeverRead : Obligations.UnreachableWordsAreNeverRead := by
  intro m n hagree bits k
  have start : OnReachedNode m n (State.launch m bits) (State.launch n bits) := ⟨rfl, rfl, ⟨[], rfl⟩, rfl⟩
  obtain ⟨t, w, ht, hw, -, -, -, rfl⟩ := exists_runSteps_of_simulation (OnReachedNode.step hagree) k start
  exact ⟨t, ht, hw⟩

/-- Settles O38: both cursors stand on one subtree at every step. -/
theorem outputDependsOnDenotedTreeOnly : Obligations.OutputDependsOnDenotedTreeOnly := by
  intro m n x hm hn bits k
  have start : SameSubtree m n (State.launch m bits) (State.launch n bits) :=
    ⟨rfl, rfl, ⟨Config.root, x, rfl, hm, hn⟩, by simp⟩
  obtain ⟨t, w, ht, hw, -, -, ⟨c, y, rfl, -, -⟩, -⟩ :=
    exists_runSteps_of_simulation (SameSubtree.step hm hn) k start
  exact ⟨t, _, ht, hw, rfl, rfl, rfl, rfl⟩

end Sys2Proof
end

section
/-! SUPPORT. What the host tool rejects (spec/30_encoding.md R85, R88, R89). -/

namespace Sys2Proof.Machine

theorem parseSymbol_of_spelledInt_none {x : Line} (h : spelledInt x = none) :
    parseSymbol x = .error .malformedTable := by
  simp [parseSymbol, h]

theorem parseSymbol_of_out_of_range {x : Line} {v : Int} (h : spelledInt x = some v) (hv : v < 0 ∨ 255 < v) :
    parseSymbol x = .error .malformedTable := by
  have range : ¬ (0 ≤ v ∧ v < 256) := by omega
  simp [parseSymbol, h, range]

/-- A symbol line fails in one way. -/
theorem parseSymbol_error {x : Line} {e : HostError} (h : parseSymbol x = .error e) : e = .malformedTable := by
  unfold parseSymbol at h
  split at h
  · cases h
    rfl
  · split at h
    · split at h
      · cases h
      · cases h
        rfl
    · cases h
      rfl

theorem parsePath_of_bad_char {y : Line} {ch : Char} (hy : ch ∈ y) (h0 : ch ≠ '0') (h1 : ch ≠ '1') :
    parsePath y = .error .malformedTable := by
  induction y with
  | nil => cases hy
  | cons c y ih =>
    rw [parsePath]
    split
    · next hc =>
      have hmem : ch ∈ y := (List.mem_cons.1 hy).resolve_left fun heq => by
        rcases hc with hc | hc
        · exact h0 (heq.trans hc)
        · exact h1 (heq.trans hc)
      rw [ih hmem]
    · rfl

theorem parsePair_of_parseSymbol_error {x : Line} (y : Line) {e : HostError} (h : parseSymbol x = .error e) :
    parsePair x y = .error e := by
  rw [parsePair, h]

/-- A bad path line is malformed whatever the symbol line. -/
theorem parsePair_of_bad_char {x y : Line} {ch : Char} (hy : ch ∈ y) (h0 : ch ≠ '0') (h1 : ch ≠ '1') :
    parsePair x y = .error .malformedTable := by
  cases hx : parseSymbol x with
  | error e => rw [parsePair_of_parseSymbol_error y hx, parseSymbol_error hx]
  | ok s => rw [parsePair, hx, parsePath_of_bad_char hy h0 h1]

theorem loadLines_of_parsePair_error (ns : List LoadNode) {x y : Line} (rest : List Line) {e : HostError}
    (h : parsePair x y = .error e) : loadLines ns (x :: y :: rest) = .error e := by
  rw [loadLines, h]

theorem loadNodeWord_int_eq_none_iff (l r : Option Nat) : loadNodeWord (.int l r) = none ↔ l = none ∨ r = none := by
  cases l <;> cases r <;> simp [loadNodeWord]

theorem mapM_eq_none_of_mem {ns : List LoadNode} {n : LoadNode} (hn : n ∈ ns) (h : loadNodeWord n = none) :
    ns.mapM loadNodeWord = none := by
  induction ns with
  | nil => cases hn
  | cons a ns ih =>
    rw [List.mapM_cons]
    rcases List.mem_cons.1 hn with rfl | hn
    · rw [h]
      rfl
    · rw [ih hn]
      cases loadNodeWord a <;> rfl

/-- R89: within `NNODES` nodes an absent child is what decides. -/
theorem imageOf_of_absent_child {ns : List LoadNode} {n : LoadNode} (hlen : ns.length ≤ Config.nnodes) (hn : n ∈ ns)
    (h : loadNodeWord n = none) : imageOf ns = .error .incompleteCode := by
  rw [imageOf, if_neg (Nat.not_lt.2 hlen), mapM_eq_none_of_mem hn h]

theorem imageOf_of_words {ns : List LoadNode} {ws : List NodeWord} (hlen : ns.length ≤ Config.nnodes)
    (h : ns.mapM loadNodeWord = some ws) : imageOf ns = .ok ws := by
  rw [imageOf, if_neg (Nat.not_lt.2 hlen), h]

end Sys2Proof.Machine

namespace Sys2Proof

open Machine

/-- Settles O50: each defect is met before the pair is loaded. -/
theorem malformedTablesAreRejected : Obligations.MalformedTablesAreRejected := by
  refine ⟨fun ns x => rfl, fun ns x y rest h => ?_, fun ns x y rest v h hv => ?_, fun ns x y rest ch hy h0 h1 => ?_⟩
  · exact loadLines_of_parsePair_error ns rest
      (parsePair_of_parseSymbol_error y (parseSymbol_of_spelledInt_none h))
  · exact loadLines_of_parsePair_error ns rest
      (parsePair_of_parseSymbol_error y (parseSymbol_of_out_of_range h hv))
  · exact loadLines_of_parsePair_error ns rest (parsePair_of_bad_char hy h0 h1)

/-- Settles O52; the two example tables are loaded by evaluation. -/
theorem incompleteTreesAreRefused : Obligations.IncompleteTreesAreRefused :=
  ⟨fun _ hlen ⟨_, hn, h⟩ => imageOf_of_absent_child hlen hn h, loadNodeWord_int_eq_none_iff, rfl, rfl⟩

end Sys2Proof
end

section
/-! SUPPORT. The pre-order image of a tree (spec/30_encoding.md R87): node memory that holds it denotes the tree, over
consecutive indices. -/

namespace Sys2Proof.Machine

variable {m : NodeMem} {a : Nat}

theorem CodeTree.size_pos (t : CodeTree) : 0 < t.size := by
  cases t with
  | leaf s => exact Nat.one_pos
  | node l r =>
    rw [CodeTree.size]
    omega

theorem length_preorderImage (a : Nat) (t : CodeTree) : (preorderImage a t).length = t.size := by
  induction t generalizing a with
  | leaf s => rfl
  | node l r ihl ihr =>
    rw [preorderImage, List.length_cons, List.length_append, ihl, ihr, CodeTree.size]
    omega

/-- The words `ws` stand in node memory from index `a` on. -/
def HoldsWords (m : NodeMem) (a : Nat) (ws : List NodeWord) : Prop :=
  ∀ k w, ws[k]? = some w → NodeMem.readAt (a + k) m = w

theorem HoldsWords.head {w : NodeWord} {ws : List NodeWord} (h : HoldsWords m a (w :: ws)) :
    NodeMem.readAt a m = w := h 0 w rfl

theorem HoldsWords.tail {w : NodeWord} {ws : List NodeWord} (h : HoldsWords m a (w :: ws)) :
    HoldsWords m (a + 1) ws := fun k v hv => by
  rw [Nat.add_right_comm]
  exact h (k + 1) v hv

theorem HoldsWords.append_left {ws vs : List NodeWord} (h : HoldsWords m a (ws ++ vs)) : HoldsWords m a ws :=
  fun k w hw => h k w (by
    rw [List.getElem?_append_left (List.getElem?_eq_some_iff.1 hw).1]
    exact hw)

theorem HoldsWords.append_right {ws vs : List NodeWord} (h : HoldsWords m a (ws ++ vs)) :
    HoldsWords m (a + ws.length) vs := fun k w hw => by
  rw [Nat.add_assoc]
  exact h (ws.length + k) w (by rw [List.getElem?_append_right (Nat.le_add_right _ _), Nat.add_sub_cancel_left, hw])

theorem read_ofNat (ha : a < Config.nnodes) (m : NodeMem) :
    NodeMem.read m (BitVec.ofNat 9 a) = NodeMem.readAt a m :=
  congrArg (NodeMem.readAt · m) (Nat.mod_eq_of_lt ha)

/-- The node indices from `a` on. -/
def indexRange (a n : Nat) : List NodeIdx := (List.range' a n).map (BitVec.ofNat 9)

theorem indexRange_node (a : Nat) (l r : CodeTree) :
    indexRange a (CodeTree.node l r).size =
      BitVec.ofNat 9 a :: (indexRange (a + 1) l.size ++ indexRange (a + 1 + l.size) r.size) := by
  rw [indexRange, CodeTree.size, Nat.add_assoc, Nat.add_comm 1, List.range'_succ, List.map_cons, ← List.range'_append_1,
    List.map_append]
  rfl

theorem indexRange_nodup {n : Nat} (h : a + n ≤ Config.nnodes) : (indexRange a n).Nodup := by
  refine List.Nodup.map_on (fun x hx y hy hxy => ?_) List.nodup_range'
  rw [List.mem_range'_1] at hx hy
  have hlt : ∀ z, z < a + n → (BitVec.ofNat 9 z).toNat = z := fun z hz => Nat.mod_eq_of_lt (hz.trans_le h)
  rw [← hlt x hx.2, ← hlt y hy.2, hxy]

/-- Index by index the image spells the tree, the left subtree right after its parent, then the right one. -/
theorem denotes_of_holdsWords {t : CodeTree} (ha : a + t.size ≤ Config.nnodes)
    (h : HoldsWords m a (preorderImage a t)) :
    Denotes m (BitVec.ofNat 9 a) t ∧ nodeIndices m (BitVec.ofNat 9 a) t = indexRange a t.size := by
  induction t generalizing a with
  | leaf s =>
    have word : NodeMem.read m (BitVec.ofNat 9 a) = encLEAF s :=
      (read_ofNat (Nat.lt_of_succ_le ha) m).trans h.head
    have hden := Denotes.leaf (m := m) (BitVec.ofNat 9 a) (by rw [word, tag_encLEAF])
    rw [word, sym_encLEAF] at hden
    exact ⟨hden, rfl⟩
  | node l r ihl ihr =>
    have hl := l.size_pos
    rw [CodeTree.size] at ha
    have word := (read_ofNat (by omega) m).trans h.head
    have htail := h.tail
    obtain ⟨hdl, hil⟩ := ihl (by omega) htail.append_left
    obtain ⟨hdr, hir⟩ := ihr (a := a + 1 + l.size) (by omega) (length_preorderImage (a + 1) l ▸ htail.append_right)
    have hleft : left (NodeMem.read m (BitVec.ofNat 9 a)) = BitVec.ofNat 9 (a + 1) := by rw [word, left_encINT]
    have hright : right (NodeMem.read m (BitVec.ofNat 9 a)) = BitVec.ofNat 9 (a + 1 + l.size) := by
      rw [word, right_encINT]
    refine ⟨.node _ l r (by rw [word, tag_encINT]) (hleft ▸ hdl) (hright ▸ hdr), ?_⟩
    rw [nodeIndices, hleft, hright, hil, hir, indexRange_node]

/-- A written image is held (R87). -/
theorem holdsWords_writeImage {ws : List NodeWord} (hwf : NodeMem.wf m = true) (hlen : ws.length ≤ Config.nnodes) :
    HoldsWords (NodeMem.writeImage 0 ws m) 0 ws := fun k w hw => by
  rw [NodeMem.readAt_writeImage 0 _ ws m hwf (by omega), if_pos (Nat.zero_le _)]
  simp [hw]

theorem preorderImage_denotes {t : CodeTree} (hwf : NodeMem.wf m = true) (hsize : t.size ≤ Config.nnodes) :
    Denotes (NodeMem.writeImage 0 (preorderImage 0 t) m) Config.root t ∧
    nodeIndices (NodeMem.writeImage 0 (preorderImage 0 t) m) Config.root t = indexRange 0 t.size :=
  denotes_of_holdsWords (by omega) (holdsWords_writeImage hwf (by rw [length_preorderImage]; exact hsize))

end Sys2Proof.Machine

namespace Sys2Proof

open Machine

/-- Settles O54: the indices of the image are consecutive, so that none repeats. -/
theorem preorderImageDenotesTree : Obligations.PreorderImageDenotesTree := by
  intro m t hwf hsize
  obtain ⟨hden, hindices⟩ := preorderImage_denotes hwf hsize
  refine ⟨(nodup_nodeIndices_iff hden).1 ?_, hden⟩
  rw [hindices]
  exact indexRange_nodup (by omega)

end Sys2Proof
end

section
/-! SUPPORT. Loading the table `save` writes (spec/30_encoding.md R84, R87): the nodes are created in the pre-order of
the tree. -/

namespace Sys2Proof.Machine

/-- The loop of `load` over the lines of code words loads the code words. -/
theorem loadLines_codeWordLines (ns : List LoadNode) (cs : List CodeWord) :
    loadLines ns (cs.flatMap codeWordLines) = cs.foldlM loadEntry ns := by
  induction cs generalizing ns with
  | nil => rfl
  | cons c cs ih =>
    show loadLines ns (symbolLine c.2 :: pathLine c.1 :: cs.flatMap codeWordLines) = _
    rw [loadLines, parsePair_codeWord, List.foldlM_cons]
    cases h : loadEntry ns c with
    | error e =>
      simp only [h]
      rfl
    | ok ns' =>
      simp only [h]
      exact ih ns'

/-- The node a path leads to in the nodes loaded so far, none where one is absent. -/
def follow (ns : List LoadNode) (c : Nat) : List Bit → Option Nat
  | [] => some c
  | b :: p =>
    match ns[c]? with
    | some (.int l r) => (loadChild l r b).bind fun j => follow ns j p
    | _ => none

theorem follow_cons {ns : List LoadNode} {c : Nat} {l r : Option Nat} (h : ns[c]? = some (.int l r)) (b : Bit)
    (p : List Bit) : follow ns c (b :: p) = (loadChild l r b).bind fun j => follow ns j p := by
  rw [follow, h]

/-- A path goes on from an internal node through a child that is there. -/
theorem follow_cons_eq_some_iff {ns : List LoadNode} {c j : Nat} {b : Bit} {p : List Bit} :
    follow ns c (b :: p) = some j ↔
      ∃ l r k, ns[c]? = some (.int l r) ∧ loadChild l r b = some k ∧ follow ns k p = some j := by
  constructor
  · intro h
    rw [follow] at h
    split at h
    · next l r hc =>
      obtain ⟨k, hk, hkj⟩ := Option.bind_eq_some_iff.1 h
      exact ⟨l, r, k, hc, hk, hkj⟩
    · cases h
  · rintro ⟨l, r, k, hc, hk, hkj⟩
    rw [follow_cons hc, hk]
    exact hkj

theorem loadNodeAt_of_getElem? {ns : List LoadNode} {c : Nat} {n : LoadNode} (h : ns[c]? = some n) :
    loadNodeAt ns c = n := by
  rw [loadNodeAt, List.getD_eq_getElem?_getD, h]
  rfl

theorem walkPath_leaf {ns : List LoadNode} {c : Nat} {s : Byte} (h : ns[c]? = some (.leaf s)) (b : Bit) (p : List Bit) :
    walkPath ns c (b :: p) = .error .ambiguousCode := by
  rw [walkPath, loadNodeAt_of_getElem? h]

theorem walkPath_child {ns : List LoadNode} {c j : Nat} {l r : Option Nat} (h : ns[c]? = some (.int l r)) {b : Bit}
    (hj : loadChild l r b = some j) (p : List Bit) : walkPath ns c (b :: p) = walkPath ns j p := by
  rw [walkPath, loadNodeAt_of_getElem? h]
  simp only [hj]

/-- An internal node with the child on bit `b` set. -/
def withChild (l r : Option Nat) (b : Bit) (j : Nat) : LoadNode := if b then .int l (some j) else .int (some j) r

theorem walkPath_newChild {ns : List LoadNode} {c : Nat} {l r : Option Nat} (h : ns[c]? = some (.int l r)) {b : Bit}
    (hj : loadChild l r b = none) (p : List Bit) :
    walkPath ns c (b :: p) =
      walkPath (ns.set c (withChild l r b ns.length) ++ [.int none none]) ns.length p := by
  rw [walkPath, loadNodeAt_of_getElem? h]
  simp only [hj]
  rfl

theorem follow_append_nodes {ns : List LoadNode} {c j : Nat} {q : List Bit} (h : follow ns c q = some j)
    (x : List LoadNode) : follow (ns ++ x) c q = some j := by
  induction q generalizing c with
  | nil => exact h
  | cons b q ih =>
    obtain ⟨l, r, k, hc, hk, hkj⟩ := follow_cons_eq_some_iff.1 h
    have hc' : (ns ++ x)[c]? = some (.int l r) := by
      rw [List.getElem?_append_left (List.getElem?_eq_some_iff.1 hc).1, hc]
    exact follow_cons_eq_some_iff.2 ⟨l, r, k, hc', hk, ih hkj⟩

theorem follow_append_path {ns : List LoadNode} {c j : Nat} {q : List Bit} (h : follow ns c q = some j) (p : List Bit) :
    follow ns c (q ++ p) = follow ns j p := by
  induction q generalizing c with
  | nil =>
    cases h
    rfl
  | cons b q ih =>
    obtain ⟨l, r, k, hc, hk, hkj⟩ := follow_cons_eq_some_iff.1 h
    rw [List.cons_append, follow_cons hc, hk]
    exact ih hkj

/-- A walk along loaded nodes creates none. -/
theorem walkPath_append_of_follow {ns : List LoadNode} {c j : Nat} {q : List Bit} (h : follow ns c q = some j)
    (p : List Bit) : walkPath ns c (q ++ p) = walkPath ns j p := by
  induction q generalizing c with
  | nil =>
    cases h
    rfl
  | cons b q ih =>
    obtain ⟨l, r, k, hc, hk, hkj⟩ := follow_cons_eq_some_iff.1 h
    rw [List.cons_append, walkPath_child hc hk]
    exact ih hkj

/-- A code word below the node at the end of `q`. -/
def underPath (q : List Bit) (c : CodeWord) : CodeWord := (q ++ c.1, c.2)

theorem map_underPath_underBranch (q : List Bit) (b : Bit) (cs : List CodeWord) :
    (cs.map (underBranch b)).map (underPath q) = cs.map (underPath (q ++ [b])) := by
  simp [underPath, underBranch, Function.comp_def]

theorem loadEntry_congr {ns ns' : List LoadNode} {c : CodeWord} (h : walkPath ns 0 c.1 = walkPath ns' 0 c.1) :
    loadEntry ns c = loadEntry ns' c := by
  rw [loadEntry, h, ← loadEntry]

section FreshChild

variable {base x : List LoadNode} {q : List Bit} {l r : Option Nat} {b : Bit}

/-- The nodes with the child of the node after `base` set to the next free index. -/
def grown (base x : List LoadNode) (l r : Option Nat) (b : Bit) : List LoadNode :=
  base ++ withChild l r b (base.length + 1 + x.length) :: x

theorem length_grown : (grown base x l r b).length = base.length + 1 + x.length := by
  rw [grown, List.length_append, List.length_cons]
  omega

/-- The path to the new child. -/
theorem follow_grown (hq : follow base 0 q = some base.length) :
    follow (grown base x l r b) 0 (q ++ [b]) = some (grown base x l r b).length := by
  have parent : (grown base x l r b)[base.length]? = some (withChild l r b (base.length + 1 + x.length)) := by
    simp [grown]
  rw [grown, follow_append_path (follow_append_nodes hq _), ← grown, length_grown]
  cases b with
  | false => exact follow_cons (l := some _) (r := r) parent false []
  | true => exact follow_cons (l := l) (r := some _) parent true []

/-- A walk through an absent child is a walk where the child has just been created. -/
theorem loadEntry_grown (hq : follow base 0 q = some base.length) (hb : loadChild l r b = none) (c : CodeWord) :
    loadEntry (base ++ .int l r :: x) (underPath (q ++ [b]) c) =
      loadEntry (grown base x l r b ++ [.int none none]) (underPath (q ++ [b]) c) := by
  refine loadEntry_congr ?_
  have parent : (base ++ LoadNode.int l r :: x)[base.length]? = some (.int l r) := by simp
  have count : (base ++ LoadNode.int l r :: x).length = base.length + 1 + x.length := by
    rw [List.length_append, List.length_cons]
    omega
  have create : (base ++ LoadNode.int l r :: x).set base.length (withChild l r b (base.length + 1 + x.length)) =
      grown base x l r b := by
    simp [grown, List.set_append_right]
  rw [underPath, walkPath_append_of_follow (follow_append_nodes (follow_grown hq) _), length_grown, List.append_assoc,
    walkPath_append_of_follow (follow_append_nodes hq _)]
  show walkPath _ base.length (b :: c.1) = _
  rw [walkPath_newChild parent hb, count, create]

/-- So it is for a whole subtree, whose first leaf creates the child. -/
theorem foldlM_grown (hq : follow base 0 q = some base.length) (hb : loadChild l r b = none) {cs : List CodeWord}
    (hne : cs ≠ []) :
    (cs.map (underPath (q ++ [b]))).foldlM loadEntry (base ++ .int l r :: x) =
      (cs.map (underPath (q ++ [b]))).foldlM loadEntry (grown base x l r b ++ [.int none none]) := by
  obtain ⟨c, cs, rfl⟩ := List.exists_cons_of_ne_nil hne
  rw [List.map_cons, List.foldlM_cons, List.foldlM_cons, loadEntry_grown hq hb]

end FreshChild

/-- The nodes of a tree in pre-order, the first at index `a`. -/
def loadedNodes (a : Nat) : CodeTree → List LoadNode
  | .leaf s => [.leaf s]
  | .node l r =>
    .int (some (a + 1)) (some (a + 1 + l.size)) :: (loadedNodes (a + 1) l ++ loadedNodes (a + 1 + l.size) r)

theorem length_loadedNodes (a : Nat) (t : CodeTree) : (loadedNodes a t).length = t.size := by
  induction t generalizing a with
  | leaf s => rfl
  | node l r ihl ihr =>
    rw [loadedNodes, List.length_cons, List.length_append, ihl, ihr, CodeTree.size]
    omega

theorem mapM_loadedNodes (a : Nat) (t : CodeTree) : (loadedNodes a t).mapM loadNodeWord = some (preorderImage a t) := by
  induction t generalizing a with
  | leaf s => rfl
  | node l r ihl ihr =>
    rw [loadedNodes, List.mapM_cons, List.mapM_append, ihl, ihr]
    rfl

theorem loadEntry_leaf {base : List LoadNode} {q : List Bit} (hq : follow base 0 q = some base.length) (s : Byte) :
    loadEntry (base ++ [.int none none]) (q, s) = .ok (base ++ [.leaf s]) := by
  have landed : walkPath (base ++ [.int none none]) 0 q = .ok (base ++ [.int none none], base.length) := by
    have := walkPath_append_of_follow (follow_append_nodes hq [.int none none]) []
    rwa [List.append_nil] at this
  have node : (base ++ [LoadNode.int none none])[base.length]? = some (.int none none) := by simp
  rw [loadEntry]
  simp only [landed]
  rw [placeLeaf, loadNodeAt_of_getElem? node]
  simp

theorem leaves_ne_nil (t : CodeTree) : t.leaves ≠ [] := by
  obtain ⟨c, hc⟩ := exists_mem_leaves t
  exact List.ne_nil_of_mem hc

/-- The leaves of a tree below the last node of `base ++ [.int none none]`: the left subtree's nodes follow it,
the right subtree's come after them. -/
theorem foldlM_loadEntry_leaves (t : CodeTree) {base : List LoadNode} {q : List Bit}
    (hq : follow base 0 q = some base.length) :
    (t.leaves.map (underPath q)).foldlM loadEntry (base ++ [.int none none]) =
      .ok (base ++ loadedNodes base.length t) := by
  induction t generalizing base q with
  | leaf s =>
    show (loadEntry _ (q ++ [], s) >>= fun ns => pure ns) = _
    rw [List.append_nil, loadEntry_leaf hq]
    rfl
  | node l r ihl ihr =>
    have first := foldlM_grown (x := []) hq (rfl : loadChild none none false = none) (leaves_ne_nil l)
    have second := foldlM_grown (x := loadedNodes (base.length + 1) l) (l := some (base.length + 1)) hq
      (rfl : loadChild _ none true = none) (leaves_ne_nil r)
    rw [ihl (follow_grown hq), length_grown] at first
    rw [ihr (follow_grown hq), length_grown, length_loadedNodes] at second
    rw [CodeTree.leaves, List.map_append, map_underPath_underBranch, map_underPath_underBranch, List.foldlM_append,
      first]
    show List.foldlM loadEntry (grown base [] none none false ++ loadedNodes (base.length + 1) l) _ = _
    rw [grown, List.append_assoc]
    refine second.trans ?_
    simp [grown, withChild, loadedNodes, length_loadedNodes]

theorem load_save (t : CodeTree) : load (save t) = .ok (loadedNodes 0 t) := by
  have hroot : (t.leaves.map (underPath [])) = t.leaves := List.map_id _
  rw [load, save, loadLines_codeWordLines, ← hroot]
  exact foldlM_loadEntry_leaves t (base := []) (q := []) rfl

theorem assembleTable_save {t : CodeTree} (h : t.size ≤ Config.nnodes) :
    assembleTable (save t) = .ok (preorderImage 0 t) := by
  rw [assembleTable, load_save]
  exact imageOf_of_words (by rw [length_loadedNodes]; exact h) (mapM_loadedNodes 0 t)

end Sys2Proof.Machine

namespace Sys2Proof

open Machine

/-- Settles O53. -/
theorem savedTableLoadsToPreorderImage : Obligations.SavedTableLoadsToPreorderImage := fun _ => assembleTable_save

end Sys2Proof
end

section
/-! SUPPORT. The tree a table has loaded so far, with absent children, and the insertion of one code word
(spec/30_encoding.md R84, R86): it fails exactly on a clash of paths. -/

namespace Sys2Proof.Machine

/-- A tree being loaded: a subtree may be absent. -/
inductive LoadTree where
  | absent
  | leaf (s : Byte)
  | node (ch : Bit → LoadTree)

/-- The subtree on bit `b`; a node without children has none on either. -/
def LoadTree.child : LoadTree → Bit → LoadTree
  | .node ch, b => ch b
  | _, _ => .absent

/-- The symbol of the leaf at the end of a path. -/
def LoadTree.symbolAt : LoadTree → List Bit → Option Byte
  | .leaf s, [] => some s
  | .node ch, b :: p => (ch b).symbolAt p
  | _, _ => none

/-- Put a leaf at the end of a path; none where a leaf stands on the way or the place is taken. -/
def LoadTree.insert (s : Byte) : List Bit → LoadTree → Option LoadTree
  | [], .absent => some (.leaf s)
  | [], _ => none
  | _ :: _, .leaf _ => none
  | b :: p, t => (insert s p (t.child b)).map fun x => .node (Function.update t.child b x)

/-- Every node made on the way to a leaf has that leaf below it. -/
inductive LoadTree.Live : LoadTree → Prop where
  | absent : Live .absent
  | leaf (s : Byte) : Live (.leaf s)
  | node (ch : Bit → LoadTree) (p : List Bit) (s : Byte) (hch : ∀ b, Live (ch b))
      (h : symbolAt (.node ch) p = some s) : Live (.node ch)

namespace LoadTree

variable {t t' : LoadTree} {s : Byte} {b : Bit} {p q : List Bit}

@[simp] theorem symbolAt_absent (p : List Bit) : symbolAt .absent p = none := by
  cases p <;> rfl

/-- Where no leaf stands a longer path goes on in the child. -/
theorem symbolAt_cons (h : ∀ s, t ≠ .leaf s) (b : Bit) (p : List Bit) :
    t.symbolAt (b :: p) = (t.child b).symbolAt p := by
  cases t with
  | absent => simp [child]
  | leaf s => exact absurd rfl (h s)
  | node ch => rfl

theorem symbolAt_nil_eq_some_iff : t.symbolAt [] = some s ↔ t = .leaf s := by
  cases t <;> simp [symbolAt]

theorem insert_cons (h : ∀ s, t ≠ .leaf s) (s : Byte) (b : Bit) (p : List Bit) :
    t.insert s (b :: p) = ((t.child b).insert s p).map fun x => .node (Function.update t.child b x) := by
  cases t with
  | absent => rfl
  | leaf x => exact absurd rfl (h x)
  | node ch => rfl

/-- Nothing is in the way of an insertion into an absent subtree. -/
theorem exists_insert_absent (s : Byte) (p : List Bit) : ∃ t, insert s p .absent = some t := by
  induction p with
  | nil => exact ⟨_, rfl⟩
  | cons b p ih =>
    obtain ⟨t, ht⟩ := ih
    rw [insert_cons (by simp), show child .absent b = .absent from rfl, ht]
    exact ⟨_, rfl⟩

/-- What a successful insertion below a branch is made of. -/
theorem insert_cons_eq_some_iff : t.insert s (b :: p) = some t' ↔
    (∀ x, t ≠ .leaf x) ∧ ∃ x, (t.child b).insert s p = some x ∧ t' = .node (Function.update t.child b x) := by
  by_cases h : ∃ x, t = .leaf x
  · obtain ⟨x, rfl⟩ := h
    simp [insert]
  · have h : ∀ x, t ≠ .leaf x := not_exists.1 h
    rw [insert_cons h]
    simp [h, eq_comm]

theorem insert_nil_eq_some_iff : t.insert s [] = some t' ↔ t = .absent ∧ t' = .leaf s := by
  cases t <;> simp [insert, eq_comm]

/-- The leaf inserted is the only one added. -/
theorem symbolAt_of_insert (h : t.insert s p = some t') (q : List Bit) :
    t'.symbolAt q = if q = p then some s else t.symbolAt q := by
  induction p generalizing t t' q with
  | nil =>
    obtain ⟨rfl, rfl⟩ := insert_nil_eq_some_iff.1 h
    cases q <;> simp [symbolAt]
  | cons b p ih =>
    obtain ⟨hleaf, x, hx, rfl⟩ := insert_cons_eq_some_iff.1 h
    cases q with
    | nil =>
      have hnil : t.symbolAt [] = none := by
        cases hs : t.symbolAt [] with
        | none => rfl
        | some y => exact absurd (symbolAt_nil_eq_some_iff.1 hs) (hleaf y)
      simp [symbolAt, hnil]
    | cons a q =>
      rw [symbolAt_cons hleaf, symbolAt]
      by_cases hab : a = b
      · subst hab
        rw [Function.update_self, ih hx]
        simp
      · rw [Function.update_of_ne hab]
        simp [hab]

theorem Live.child (h : t.Live) (b : Bit) : (t.child b).Live := by
  cases h with
  | absent => exact .absent
  | leaf s => exact .absent
  | node ch p s hch _ => exact hch b

theorem Live.insert (hl : t.Live) (h : t.insert s p = some t') : t'.Live := by
  induction p generalizing t t' with
  | nil =>
    obtain ⟨-, rfl⟩ := insert_nil_eq_some_iff.1 h
    exact .leaf s
  | cons b p ih =>
    have hs := symbolAt_of_insert h (b :: p)
    rw [if_pos rfl] at hs
    obtain ⟨-, x, hx, rfl⟩ := insert_cons_eq_some_iff.1 h
    refine .node _ (b :: p) s (fun a => ?_) hs
    by_cases hab : a = b
    · subst hab
      rw [Function.update_self]
      exact ih (hl.child a) hx
    · rw [Function.update_of_ne hab]
      exact hl.child a

/-- An insertion that fails meets a leaf on its path, or a node with a leaf below. -/
theorem exists_clash_of_insert_none (hl : t.Live) (h : t.insert s p = none) :
    ∃ q x, t.symbolAt q = some x ∧ (q <+: p ∨ p <+: q) := by
  induction p generalizing t with
  | nil =>
    cases hl with
    | absent => cases h
    | leaf x => exact ⟨[], x, rfl, .inl List.nil_prefix⟩
    | node ch q x _ hq => exact ⟨q, x, hq, .inr List.nil_prefix⟩
  | cons b p ih =>
    by_cases hleaf : ∃ x, t = .leaf x
    · obtain ⟨x, rfl⟩ := hleaf
      exact ⟨[], x, rfl, .inl List.nil_prefix⟩
    · have hleaf : ∀ x, t ≠ .leaf x := not_exists.1 hleaf
      rw [insert_cons hleaf, Option.map_eq_none_iff] at h
      obtain ⟨q, x, hq, hclash⟩ := ih (hl.child b) h
      refine ⟨b :: q, x, (symbolAt_cons hleaf b q).trans hq, ?_⟩
      rwa [List.prefix_cons_inj, List.prefix_cons_inj]

/-- An insertion that succeeds clashes with no leaf. -/
theorem noClash_of_insert {x : Byte} (h : t.insert s p = some t') (hq : t.symbolAt q = some x) :
    NoClash (p, s) (q, x) := by
  induction p generalizing t t' q with
  | nil =>
    obtain ⟨rfl, -⟩ := insert_nil_eq_some_iff.1 h
    simp at hq
  | cons b p ih =>
    obtain ⟨hleaf, y, hy, -⟩ := insert_cons_eq_some_iff.1 h
    cases q with
    | nil => exact absurd (symbolAt_nil_eq_some_iff.1 hq) (hleaf x)
    | cons a q =>
      rw [symbolAt_cons hleaf] at hq
      by_cases hab : a = b
      · subst hab
        exact noClash_underBranch a (ih hy hq)
      · exact noClash_of_branch_ne (Ne.symm hab) (p, s) (q, x)

end LoadTree

end Sys2Proof.Machine
end

section
/-! SUPPORT. The list of nodes `load` grows represents the tree loaded so far, each node in a region of its own, and one
code word is loaded as it is inserted (spec/30_encoding.md R84). -/

namespace Sys2Proof.Machine

variable {ns ns' : List LoadNode} {o : Option Nat} {t t' : LoadTree} {I : Set Nat} {c : Nat} {s : Byte} {p : List Bit}

/-- A child pointer `o` represents the tree `t` with nodes at indices of `I`; the regions of the two children are
disjoint. -/
inductive Represents (ns : List LoadNode) : Option Nat → LoadTree → Set Nat → Prop where
  | absent (I : Set Nat) : Represents ns none .absent I
  | fresh {c : Nat} {I : Set Nat} (h : ns[c]? = some (.int none none)) (hc : c ∈ I) :
      Represents ns (some c) .absent I
  | leaf {c : Nat} {I : Set Nat} {s : Byte} (h : ns[c]? = some (.leaf s)) (hc : c ∈ I) :
      Represents ns (some c) (.leaf s) I
  | node {c : Nat} {I : Set Nat} {l r : Option Nat} {ch : Bit → LoadTree} (J : Bit → Set Nat)
      (h : ns[c]? = some (.int l r)) (hc : c ∈ I) (hsome : ∃ b, (loadChild l r b).isSome = true)
      (hch : ∀ b, Represents ns (loadChild l r b) (ch b) (J b)) (hJ : ∀ b, J b ⊆ I) (hcJ : ∀ b, c ∉ J b)
      (hdisj : ∀ a b, a ≠ b → Disjoint (J a) (J b)) : Represents ns (some c) (.node ch) I

/-- What happens outside the region does not matter. -/
theorem Represents.frame (h : Represents ns o t I) (hag : ∀ j ∈ I, ns'[j]? = ns[j]?) : Represents ns' o t I := by
  induction h with
  | absent I => exact .absent I
  | fresh h hc => exact .fresh ((hag _ hc).trans h) hc
  | leaf h hc => exact .leaf ((hag _ hc).trans h) hc
  | node J h hc hsome _ hJ hcJ hdisj ih =>
    exact .node J ((hag _ hc).trans h) hc hsome (fun b => ih b fun j hj => hag j (hJ b hj)) hJ hcJ hdisj

theorem Represents.mono {K : Set Nat} (h : Represents ns o t I) (hIK : I ⊆ K) : Represents ns o t K := by
  cases h with
  | absent => exact .absent K
  | fresh h hc => exact .fresh h (hIK hc)
  | leaf h hc => exact .leaf h (hIK hc)
  | node J h hc hsome hch hJ hcJ hdisj => exact .node J h (hIK hc) hsome hch (fun b => (hJ b).trans hIK) hcJ hdisj

theorem Represents.eq_absent (h : Represents ns none t I) : t = .absent := by
  cases h
  rfl

theorem Represents.getElem?_leaf (h : Represents ns (some c) (.leaf s) I) : ns[c]? = some (.leaf s) := by
  cases h with
  | leaf h _ => exact h

/-- An internal node at `c` with its children, created or not. -/
structure InternalAt (ns : List LoadNode) (c : Nat) (t : LoadTree) (I : Set Nat) (l r : Option Nat)
    (J : Bit → Set Nat) : Prop where
  node : ns[c]? = some (.int l r)
  mem : c ∈ I
  children : ∀ b, Represents ns (loadChild l r b) (t.child b) (J b)
  subset : ∀ b, J b ⊆ I
  not_mem : ∀ b, c ∉ J b
  disjoint : ∀ a b, a ≠ b → Disjoint (J a) (J b)

theorem Represents.internalAt (h : Represents ns (some c) t I) (hleaf : ∀ s, t ≠ .leaf s) :
    ∃ l r J, InternalAt ns c t I l r J := by
  cases h with
  | fresh h hc =>
    refine ⟨none, none, fun _ => ∅, h, hc, fun b => ?_, by simp, by simp, by simp⟩
    cases b <;> exact .absent ∅
  | leaf h hc => exact absurd rfl (hleaf _)
  | node J h hc _ hch hJ hcJ hdisj => exact ⟨_, _, J, h, hc, hch, hJ, hcJ, hdisj⟩

/-- The node at `c` again, when its child on `b` has become `x` within its own region and new indices. -/
theorem InternalAt.update {l r l' r' : Option Nat} {J : Bit → Set Nat} (h : InternalAt ns c t I l r J)
    (hI : I ⊆ Set.Iio ns.length) {b : Bit} {j : Nat} {x : LoadTree} (hnode : ns'[c]? = some (.int l' r'))
    (hb : loadChild l' r' b = some j) (hother : ∀ a, a ≠ b → loadChild l' r' a = loadChild l r a)
    (hag : ∀ k < ns.length, k ≠ c → k ∉ J b → ns'[k]? = ns[k]?)
    (hx : Represents ns' (some j) x (J b ∪ Set.Ico ns.length ns'.length)) :
    Represents ns' (some c) (.node (Function.update t.child b x)) (I ∪ Set.Ico ns.length ns'.length) := by
  have old : ∀ a k, k ∈ J a → k < ns.length := fun a k hk => hI (h.subset a hk)
  have apart : ∀ a, a ≠ b → Disjoint (J b ∪ Set.Ico ns.length ns'.length) (J a) := fun a ha =>
    Set.disjoint_union_left.2 ⟨h.disjoint b a ha.symm,
      Set.disjoint_left.2 fun k hk hka => absurd (old a k hka) (Nat.not_lt.2 hk.1)⟩
  refine .node (Function.update J b (J b ∪ Set.Ico ns.length ns'.length)) hnode (.inl h.mem) ⟨b, by rw [hb]; rfl⟩
    (fun a => ?_)
    ((Function.forall_update_iff J fun _ K => K ⊆ I ∪ Set.Ico ns.length ns'.length).2
      ⟨Set.union_subset_union_left _ (h.subset b), fun a _ => (h.subset a).trans Set.subset_union_left⟩)
    ((Function.forall_update_iff J fun _ K => c ∉ K).2 ⟨?_, fun a _ => h.not_mem a⟩) (fun a a' haa => ?_)
  · by_cases ha : a = b
    · subst ha
      rw [Function.update_self, Function.update_self, hb]
      exact hx
    · rw [Function.update_of_ne ha, Function.update_of_ne ha, hother a ha]
      exact (h.children a).frame fun k hk => hag k (old a k hk) (fun hkc => h.not_mem a (hkc ▸ hk))
        (Set.disjoint_left.1 (h.disjoint a b ha) hk)
  · rintro (hk | hk)
    · exact h.not_mem b hk
    · exact absurd (hI h.mem) (Nat.not_lt.2 hk.1)
  · by_cases ha : a = b
    · subst ha
      rw [Function.update_self, Function.update_of_ne haa.symm]
      exact apart a' haa.symm
    · by_cases ha' : a' = b
      · subst ha'
        rw [Function.update_self, Function.update_of_ne ha]
        exact (apart a ha).symm
      · rw [Function.update_of_ne ha, Function.update_of_ne ha']
        exact h.disjoint a a' haa

/-- `loadEntry` from any node. -/
def loadFrom (ns : List LoadNode) (c : Nat) (p : List Bit) (s : Byte) : Except HostError (List LoadNode) :=
  match walkPath ns c p with
  | .ok (ns', j) => placeLeaf ns' j s
  | .error e => .error e

theorem loadEntry_eq_loadFrom (ns : List LoadNode) (c : CodeWord) : loadEntry ns c = loadFrom ns 0 c.1 c.2 := rfl

theorem loadFrom_congr {d : Nat} {q : List Bit} (h : walkPath ns c p = walkPath ns' d q) (s : Byte) :
    loadFrom ns c p s = loadFrom ns' d q s := by
  rw [loadFrom, h, ← loadFrom]

theorem placeLeaf_fresh (h : ns[c]? = some (.int none none)) (s : Byte) :
    placeLeaf ns c s = .ok (ns.set c (.leaf s)) := by
  rw [placeLeaf, loadNodeAt_of_getElem? h]

theorem placeLeaf_leaf {x : Byte} (h : ns[c]? = some (.leaf x)) (s : Byte) :
    placeLeaf ns c s = .error .ambiguousCode := by
  rw [placeLeaf, loadNodeAt_of_getElem? h]

theorem placeLeaf_parent {l r : Option Nat} {b : Bit} (h : ns[c]? = some (.int l r))
    (hb : (loadChild l r b).isSome = true) (s : Byte) : placeLeaf ns c s = .error .ambiguousCode := by
  rw [placeLeaf, loadNodeAt_of_getElem? h]
  match l, r with
  | some _, _ => rfl
  | none, some _ => rfl
  | none, none => cases b <;> cases hb

theorem getElem?_newChild {x : LoadNode} {j : Nat} (hj : j < ns.length) (hjc : j ≠ c) :
    (ns.set c x ++ [.int none none])[j]? = ns[j]? := by
  rw [List.getElem?_append_left (by rwa [List.length_set]), List.getElem?_set_ne hjc.symm]

/-- Setting one child leaves the other. -/
theorem exists_withChild_eq (l r : Option Nat) (b : Bit) (j : Nat) :
    ∃ l' r', withChild l r b j = .int l' r' ∧ loadChild l' r' b = some j ∧
      ∀ a, a ≠ b → loadChild l' r' a = loadChild l r a := by
  cases b with
  | false => exact ⟨some j, r, rfl, rfl, fun a ha => by rw [Bool.eq_true_of_not_eq_false ha]; rfl⟩
  | true => exact ⟨l, some j, rfl, rfl, fun a ha => by rw [Bool.eq_false_of_not_eq_true ha]; rfl⟩

/-- A failing insertion is a failing load. -/
theorem Represents.loadFrom_of_insert_none (h : Represents ns (some c) t I) (hins : t.insert s p = none) :
    loadFrom ns c p s = .error .ambiguousCode := by
  induction p generalizing c t I with
  | nil =>
    cases h with
    | fresh h _ => cases hins
    | leaf h _ => exact placeLeaf_leaf h s
    | node J h _ hsome _ _ _ _ =>
      obtain ⟨b, hb⟩ := hsome
      exact placeLeaf_parent h hb s
  | cons b p ih =>
    by_cases hleaf : ∃ x, t = .leaf x
    · obtain ⟨x, rfl⟩ := hleaf
      rw [loadFrom, walkPath_leaf h.getElem?_leaf]
    · have hleaf : ∀ x, t ≠ .leaf x := not_exists.1 hleaf
      rw [LoadTree.insert_cons hleaf, Option.map_eq_none_iff] at hins
      obtain ⟨l, r, J, hint⟩ := h.internalAt hleaf
      have hchild := hint.children b
      cases hj : loadChild l r b with
      | some j =>
        rw [hj] at hchild
        rw [loadFrom_congr (walkPath_child hint.node hj p)]
        exact ih hchild hins
      | none =>
        rw [hj] at hchild
        obtain ⟨x, hx⟩ := LoadTree.exists_insert_absent s p
        rw [hchild.eq_absent, hx] at hins
        cases hins

/-- What a load leaves behind: the new tree, in the old region and the new indices, and the other nodes untouched. -/
structure LoadsTo (ns : List LoadNode) (c : Nat) (I : Set Nat) (ns' : List LoadNode) (t' : LoadTree) : Prop where
  represents : Represents ns' (some c) t' (I ∪ Set.Ico ns.length ns'.length)
  untouched : ∀ j < ns.length, j ∉ I → ns'[j]? = ns[j]?
  grows : ns.length ≤ ns'.length

/-- A successful insertion is a successful load. -/
theorem Represents.loadFrom_of_insert_some (h : Represents ns (some c) t I) (hI : I ⊆ Set.Iio ns.length)
    (hins : t.insert s p = some t') : ∃ ns', loadFrom ns c p s = .ok ns' ∧ LoadsTo ns c I ns' t' := by
  induction p generalizing ns c t t' I with
  | nil =>
    obtain ⟨rfl, rfl⟩ := LoadTree.insert_nil_eq_some_iff.1 hins
    cases h with
    | fresh h hc =>
      refine ⟨_, placeLeaf_fresh h s, .leaf ?_ (.inl hc), fun j _ hj => ?_, by simp⟩
      · rw [List.getElem?_set_self (hI hc)]
      · exact List.getElem?_set_ne (fun hcj : c = j => hj (hcj ▸ hc))
  | cons b p ih =>
    obtain ⟨hleaf, x, hx, rfl⟩ := LoadTree.insert_cons_eq_some_iff.1 hins
    obtain ⟨l, r, J, hint⟩ := h.internalAt hleaf
    have hc : c < ns.length := hI hint.mem
    have hchild := hint.children b
    cases hj : loadChild l r b with
    | some j =>
      rw [hj] at hchild
      obtain ⟨ns', hload, hrep, hag, hlen⟩ := ih hchild ((hint.subset b).trans hI) hx
      refine ⟨ns', (loadFrom_congr (walkPath_child hint.node hj p) s).trans hload, ?_, fun k hk hkI => ?_, hlen⟩
      · exact hint.update hI ((hag c hc (hint.not_mem b)).trans hint.node) hj (fun _ _ => rfl)
          (fun k hk _ hkJ => hag k hk hkJ) hrep
      · exact hag k hk fun hkJ => hkI (hint.subset b hkJ)
    | none =>
      rw [hj] at hchild
      rw [hchild.eq_absent] at hx
      have hlast : (ns.set c (withChild l r b ns.length) ++ [LoadNode.int none none])[ns.length]? =
          some (.int none none) := by simp
      have hlength : (ns.set c (withChild l r b ns.length) ++ [LoadNode.int none none]).length = ns.length + 1 := by
        simp
      obtain ⟨ns', hload, hrep, hag, hlen⟩ := ih (.fresh hlast (Set.mem_singleton _))
        (by rw [hlength]; exact Set.singleton_subset_iff.2 (Nat.lt_succ_self _)) hx
      rw [hlength] at hrep hag hlen
      have hag' : ∀ k < ns.length, k ≠ c → ns'[k]? = ns[k]? := fun k hk hkc =>
        (hag k (hk.trans (Nat.lt_succ_self _)) (Nat.ne_of_lt hk)).trans (getElem?_newChild hk hkc)
      have hparent : ns'[c]? = some (withChild l r b ns.length) := by
        rw [hag c (hc.trans (Nat.lt_succ_self _)) (Nat.ne_of_lt hc),
          List.getElem?_append_left (by rwa [List.length_set]), List.getElem?_set_self hc]
      refine ⟨ns', (loadFrom_congr (walkPath_newChild hint.node hj p) s).trans hload, ?_, fun k hk hkI => ?_,
        Nat.le_of_succ_le hlen⟩
      · obtain ⟨l', r', hwith, hb, hother⟩ := exists_withChild_eq l r b ns.length
        refine hint.update hI (hparent.trans (congrArg some hwith)) hb hother (fun k hk hkc _ => hag' k hk hkc)
          (hrep.mono (Set.union_subset (Set.singleton_subset_iff.2 (.inr ⟨Nat.le_refl _, hlen⟩)) ?_))
        exact (Set.Ico_subset_Ico_left (Nat.le_succ _)).trans Set.subset_union_right
      · exact hag' k hk fun hkc => hkI (hkc ▸ hint.mem)

end Sys2Proof.Machine
end

section
/-! SUPPORT. A table loads exactly when no path of it begins another (spec/30_encoding.md R86). -/

namespace Sys2Proof.Machine

/-- The code words `cs` clash neither with each other nor with a leaf of `t`. -/
def ClashFree (t : LoadTree) (cs : List CodeWord) : Prop :=
  cs.Pairwise NoClash ∧ ∀ c ∈ cs, ∀ q x, t.symbolAt q = some x → NoClash c (q, x)

theorem not_noClash_of_prefix {c : CodeWord} {q : List Bit} {x : Byte} (h : q <+: c.1 ∨ c.1 <+: q) :
    ¬ NoClash c (q, x) := fun hn => h.elim hn.2 hn.1

/-- The code word loaded counts as a leaf from then on. -/
theorem clashFree_cons_iff {t t' : LoadTree} {c : CodeWord} {cs : List CodeWord}
    (hins : t.insert c.2 c.1 = some t') : ClashFree t (c :: cs) ↔ ClashFree t' cs := by
  have hnew : ∀ q x, t'.symbolAt q = some x ↔ (q = c.1 ∧ x = c.2) ∨ (q ≠ c.1 ∧ t.symbolAt q = some x) := by
    intro q x
    rw [LoadTree.symbolAt_of_insert hins]
    by_cases hq : q = c.1 <;> simp [hq, eq_comm]
  have hold : ∀ q x, t.symbolAt q = some x → NoClash c (q, x) := fun q x => LoadTree.noClash_of_insert hins
  rw [ClashFree, ClashFree, List.pairwise_cons, List.forall_mem_cons]
  constructor
  · rintro ⟨⟨hc, hcs⟩, -, hall⟩
    refine ⟨hcs, fun d hd q x hq => ?_⟩
    rcases (hnew q x).1 hq with ⟨rfl, rfl⟩ | ⟨-, hq⟩
    · exact (hc d hd).symm
    · exact hall d hd q x hq
  · rintro ⟨hcs, hall⟩
    refine ⟨⟨fun d hd => (hall d hd c.1 c.2 ((hnew _ _).2 (.inl ⟨rfl, rfl⟩))).symm, hcs⟩, hold, fun d hd q x hq => ?_⟩
    have hne : q ≠ c.1 := fun heq => (hold q x hq).1 (heq ▸ List.prefix_rfl)
    exact hall d hd q x ((hnew q x).2 (.inr ⟨hne, hq⟩))

/-- Code word by code word: the loop ends with `AmbiguousCode` at the first clash, and otherwise loads them all. -/
theorem foldlM_loadEntry_cases {ns : List LoadNode} {t : LoadTree} (hrep : Represents ns (some 0) t (Set.Iio ns.length))
    (hlive : t.Live) (cs : List CodeWord) :
    (ClashFree t cs ∧ ∃ ns', cs.foldlM loadEntry ns = .ok ns') ∨
    (¬ ClashFree t cs ∧ cs.foldlM loadEntry ns = .error .ambiguousCode) := by
  induction cs generalizing ns t with
  | nil => exact .inl ⟨⟨.nil, by simp⟩, ns, rfl⟩
  | cons c cs ih =>
    rw [List.foldlM_cons, loadEntry_eq_loadFrom]
    cases hins : t.insert c.2 c.1 with
    | none =>
      obtain ⟨q, x, hq, hclash⟩ := LoadTree.exists_clash_of_insert_none hlive hins
      rw [hrep.loadFrom_of_insert_none hins]
      exact .inr ⟨fun hfree => not_noClash_of_prefix hclash (hfree.2 c (by simp) q x hq), rfl⟩
    | some t' =>
      obtain ⟨ns', hload, hrep', -, hlen⟩ := hrep.loadFrom_of_insert_some (le_refl _) hins
      have region : Set.Iio ns.length ∪ Set.Ico ns.length ns'.length = Set.Iio ns'.length :=
        Set.Iio_union_Ico_eq_Iio hlen
      rw [region] at hrep'
      rw [hload, clashFree_cons_iff hins]
      exact ih hrep' (hlive.insert hins)

/-- R86 for the table of the code words `cs`. -/
theorem load_cases (cs : List CodeWord) :
    (cs.Pairwise NoClash ∧ ∃ ns, load (cs.flatMap codeWordLines) = .ok ns) ∨
    (¬ cs.Pairwise NoClash ∧ load (cs.flatMap codeWordLines) = .error .ambiguousCode) := by
  have hrep : Represents [.int none none] (some 0) .absent (Set.Iio 1) := .fresh rfl Nat.one_pos
  have hfree : ClashFree .absent cs ↔ cs.Pairwise NoClash := and_iff_left (by simp)
  rw [load, loadLines_codeWordLines, ← hfree]
  exact foldlM_loadEntry_cases hrep .absent cs

theorem load_eq_ambiguous_iff (cs : List CodeWord) :
    load (cs.flatMap codeWordLines) = .error .ambiguousCode ↔ ¬ cs.Pairwise NoClash := by
  rcases load_cases cs with ⟨hfree, ns, hload⟩ | ⟨hclash, hload⟩
  · rw [hload]
    exact iff_of_false (fun h => by cases h) (not_not_intro hfree)
  · exact iff_of_true hload hclash

end Sys2Proof.Machine

namespace Sys2Proof

open Machine

/-- Settles O51: whether two paths clash does not depend on their order. -/
theorem ambiguousTablesAreExactlyThePrefixClashes : Obligations.AmbiguousTablesAreExactlyThePrefixClashes := by
  refine ⟨fun cs => ⟨load_eq_ambiguous_iff cs, fun hfree => ?_⟩, fun cs ds hperm => ?_⟩
  · exact (load_cases cs).elim And.right fun h => absurd hfree h.1
  · rw [load_eq_ambiguous_iff, load_eq_ambiguous_iff, hperm.pairwise_iff NoClash.symm]

end Sys2Proof
end

section
/-! SUPPORT. `build` (spec/30_encoding.md R91): a round keeps the symbols of the candidates, whatever the tie-break. -/

namespace Sys2Proof.Machine

/-- The symbols of a tree's leaves. -/
def CodeTree.symbols (t : CodeTree) : List Byte := t.leaves.map Prod.snd

theorem symbols_node (l r : CodeTree) : (CodeTree.node l r).symbols = l.symbols ++ r.symbols := by
  simp [CodeTree.symbols, CodeTree.leaves, underBranch, Function.comp_def]

/-- R6, G2. -/
theorem size_add_one_eq (t : CodeTree) : t.size + 1 = 2 * t.leaves.length := by
  induction t with
  | leaf s => rfl
  | node l r ihl ihr =>
    rw [CodeTree.size, CodeTree.leaves, List.length_append, List.length_map, List.length_map]
    omega

/-- The symbols of the candidates' trees. -/
def candidateSymbols (cs : List Candidate) : List Byte := cs.flatMap fun c => c.2.symbols

theorem candidateSymbols_perm {cs ds : List Candidate} (h : cs.Perm ds) :
    (candidateSymbols cs).Perm (candidateSymbols ds) := h.flatMap_right _

/-- The position chosen is one of the list's. -/
theorem lowestPosition_lt (tie : TieBreak) {cs : List Candidate} (h : 0 < cs.length) :
    lowestPosition tie cs < cs.length := by
  unfold lowestPosition
  rw [List.getD_eq_getElem?_getD]
  cases hp : (lowestPositions cs)[tie ((lowestPositions cs).filterMap fun p => cs[p]?) %
      (lowestPositions cs).length]? with
  | none => exact h
  | some p => exact List.mem_range.1 (List.mem_filter.1 (List.mem_of_getElem? hp)).1

/-- Taking one candidate out. -/
theorem exists_removeLowest (tie : TieBreak) {cs : List Candidate} (h : 0 < cs.length) :
    ∃ a, cs[lowestPosition tie cs]? = some a ∧ (a :: removeLowest tie cs).Perm cs :=
  ⟨_, List.getElem?_eq_getElem (lowestPosition_lt tie h), List.getElem_cons_eraseIdx_perm _⟩

/-- A round takes two candidates out and puts their parent in. -/
theorem exists_mergeTwo (tie : TieBreak) {cs : List Candidate} (h : 2 ≤ cs.length) :
    ∃ (a b : Candidate) (ds : List Candidate), (a :: b :: ds).Perm cs ∧
      mergeTwo tie cs = ds ++ [(a.1 + b.1, .node a.2 b.2)] := by
  obtain ⟨a, ha, hpa⟩ := exists_removeLowest tie (Nat.zero_lt_of_lt h)
  have hlen := hpa.length_eq
  rw [List.length_cons] at hlen
  obtain ⟨b, hb, hpb⟩ := exists_removeLowest tie (cs := removeLowest tie cs) (by omega)
  refine ⟨a, b, _, (hpb.cons a).trans hpa, ?_⟩
  rw [mergeTwo, ha]
  simp only [hb]

theorem length_mergeTwo (tie : TieBreak) {cs : List Candidate} (h : 2 ≤ cs.length) :
    (mergeTwo tie cs).length + 1 = cs.length := by
  obtain ⟨a, b, ds, hperm, hmerge⟩ := exists_mergeTwo tie h
  rw [hmerge, ← hperm.length_eq]
  simp

theorem candidateSymbols_mergeTwo (tie : TieBreak) {cs : List Candidate} (h : 2 ≤ cs.length) :
    (candidateSymbols (mergeTwo tie cs)).Perm (candidateSymbols cs) := by
  obtain ⟨a, b, ds, hperm, hmerge⟩ := exists_mergeTwo tie h
  rw [hmerge]
  refine (candidateSymbols_perm List.perm_append_comm).trans (List.Perm.trans ?_ (candidateSymbols_perm hperm))
  simp [candidateSymbols, symbols_node]

/-- With as many rounds as candidates one tree remains, over the candidates' symbols. -/
theorem exists_mergeAll (tie : TieBreak) (n : Nat) {cs : List Candidate} (h0 : cs ≠ []) (hn : cs.length ≤ n + 1) :
    ∃ t, mergeAll tie n cs = .ok t ∧ t.symbols.Perm (candidateSymbols cs) := by
  induction n generalizing cs with
  | zero =>
    obtain ⟨c, rfl⟩ := List.length_eq_one_iff.1 (Nat.le_antisymm hn (List.length_pos_of_ne_nil h0))
    exact ⟨c.2, rfl, by simp [candidateSymbols]⟩
  | succ n ih =>
    match cs with
    | [] => exact absurd rfl h0
    | [c] => exact ⟨c.2, rfl, by simp [candidateSymbols]⟩
    | c :: d :: cs =>
      have two : 2 ≤ (c :: d :: cs).length := by simp
      have hlen := length_mergeTwo tie two
      obtain ⟨t, ht, hperm⟩ := ih (cs := mergeTwo tie (c :: d :: cs))
        (List.ne_nil_of_length_pos (by omega)) (by omega)
      exact ⟨t, ht, hperm.trans (candidateSymbols_mergeTwo tie two)⟩

/-- The symbols of positive frequency, in symbol order. -/
def positiveSymbols (freq : Byte → Nat) : List Byte :=
  ((List.range Config.nsym).map (BitVec.ofNat 8)).filter fun s => decide (0 < freq s)

theorem leafCandidates_eq_map (freq : Byte → Nat) :
    leafCandidates freq = (positiveSymbols freq).map fun s => (freq s, .leaf s) := by
  unfold leafCandidates positiveSymbols
  induction (List.range Config.nsym).map (BitVec.ofNat 8) with
  | nil => rfl
  | cons s ss ih =>
    rw [List.filterMap_cons, List.filter_cons]
    by_cases h : 0 < freq s <;> simp [h, ih]

theorem mem_positiveSymbols_iff (freq : Byte → Nat) (s : Byte) : s ∈ positiveSymbols freq ↔ 0 < freq s := by
  have every : s ∈ (List.range Config.nsym).map (BitVec.ofNat 8) :=
    List.mem_map.2 ⟨s.toNat, List.mem_range.2 s.isLt, by simp⟩
  rw [positiveSymbols, List.mem_filter, decide_eq_true_eq]
  exact and_iff_right every

theorem positiveSymbols_nodup (freq : Byte → Nat) : (positiveSymbols freq).Nodup := by
  refine List.Nodup.filter _ (List.Nodup.map_on (fun x hx y hy hxy => ?_) List.nodup_range)
  rw [List.mem_range] at hx hy
  have value : ∀ z, z < Config.nsym → (BitVec.ofNat 8 z).toNat = z := fun z hz => Nat.mod_eq_of_lt hz
  rw [← value x hx, ← value y hy, hxy]

theorem candidateSymbols_leafCandidates (freq : Byte → Nat) :
    candidateSymbols (leafCandidates freq) = positiveSymbols freq := by
  rw [leafCandidates_eq_map, candidateSymbols, List.flatMap_map]
  exact List.flatMap_singleton' _

theorem positiveSymbols_eq_nil {freq : Byte → Nat} (h : ∀ b, freq b = 0) : positiveSymbols freq = [] :=
  List.eq_nil_iff_forall_not_mem.2 fun s hs => by simp [mem_positiveSymbols_iff, h] at hs

theorem positiveSymbols_eq_singleton {freq : Byte → Nat} {b : Byte} (hb : 0 < freq b) (h : ∀ c, c ≠ b → freq c = 0) :
    positiveSymbols freq = [b] := by
  refine List.perm_singleton.1 ((List.perm_ext_iff_of_nodup (positiveSymbols_nodup freq) (List.nodup_singleton b)).2
    fun c => ?_)
  rw [mem_positiveSymbols_iff, List.mem_singleton]
  constructor
  · intro hc
    by_contra hne
    exact absurd (h c hne) (Nat.pos_iff_ne_zero.1 hc)
  · rintro rfl
    exact hb

theorem build_of_no_symbol (tie : TieBreak) {freq : Byte → Nat} (h : ∀ b, freq b = 0) :
    build tie freq = .error .emptyAlphabet := by
  rw [build, leafCandidates_eq_map, positiveSymbols_eq_nil h]
  rfl

theorem build_of_one_symbol (tie : TieBreak) {freq : Byte → Nat} {b : Byte} (hb : 0 < freq b)
    (h : ∀ c, c ≠ b → freq c = 0) : build tie freq = .ok (.leaf b) := by
  rw [build, leafCandidates_eq_map, positiveSymbols_eq_singleton hb h]
  rfl

/-- R92: the leaves of a built tree carry the symbols of positive frequency. -/
theorem exists_build (tie : TieBreak) {freq : Byte → Nat} {b : Byte} (hb : 0 < freq b) :
    ∃ t, build tie freq = .ok t ∧ t.symbols.Perm (positiveSymbols freq) := by
  have nonempty : leafCandidates freq ≠ [] := by
    rw [leafCandidates_eq_map]
    exact mt List.map_eq_nil_iff.1 (List.ne_nil_of_mem ((mem_positiveSymbols_iff freq b).2 hb))
  rw [← candidateSymbols_leafCandidates]
  exact exists_mergeAll tie _ nonempty (Nat.le_succ _)

theorem symbols_nodup_of_build {tie : TieBreak} {freq : Byte → Nat} {t : CodeTree} (h : build tie freq = .ok t) :
    t.symbols.Nodup := by
  by_cases hpos : ∃ b, 0 < freq b
  · obtain ⟨b, hb⟩ := hpos
    obtain ⟨u, hu, hperm⟩ := exists_build tie hb
    cases hu.symm.trans h
    exact hperm.nodup_iff.2 (positiveSymbols_nodup freq)
  · have zero : ∀ b, freq b = 0 := fun b => Nat.eq_zero_of_not_pos (not_exists.1 hpos b)
    cases (build_of_no_symbol tie zero).symm.trans h

theorem length_le_of_nodup_bytes {bs : List Byte} (h : bs.Nodup) : bs.length ≤ 256 := by
  have hcard : Fintype.card Byte = 256 := by
    rw [← FinEnum.card_eq_fintypeCard]
    rfl
  exact hcard ▸ h.length_le_card

theorem size_le_of_build {tie : TieBreak} {freq : Byte → Nat} {t : CodeTree} (h : build tie freq = .ok t) :
    t.size ≤ 511 := by
  have leaves := length_le_of_nodup_bytes (symbols_nodup_of_build h)
  have count := size_add_one_eq t
  rw [CodeTree.symbols, List.length_map] at leaves
  omega

end Sys2Proof.Machine

namespace Sys2Proof

open Machine

/-- Settles O55: every round keeps the symbols, so that the tree has those of the leaf candidates. -/
theorem builtTreeHasOneLeafPerPositiveSymbol : Obligations.BuiltTreeHasOneLeafPerPositiveSymbol := by
  refine fun tie freq => ⟨build_of_no_symbol tie, fun b => build_of_one_symbol tie, fun b hb => ?_⟩
  obtain ⟨t, ht, hperm⟩ := exists_build tie hb
  exact ⟨t, ht, hperm.nodup_iff.2 (positiveSymbols_nodup freq),
    fun c => hperm.mem_iff.trans (mem_positiveSymbols_iff freq c)⟩

/-- Settles O56: the symbols of a built tree are distinct bytes. -/
theorem builtTreeFitsNodeMemory : Obligations.BuiltTreeFitsNodeMemory :=
  ⟨size_add_one_eq, fun _ _ _ => size_le_of_build⟩

/-- Settles O57: a built tree fits, so that its table loads to its pre-order image. -/
theorem buildSaveLoadRoundTrip : Obligations.BuildSaveLoadRoundTrip := by
  intro tie freq t m hbuild hwf
  have hsize : t.size ≤ Config.nnodes := (size_le_of_build hbuild).trans (Nat.le_succ 511)
  exact ⟨preorderImage 0 t, assembleTable_save hsize, (preorderImage_denotes hwf hsize).1⟩

end Sys2Proof
end
